-- ==== Sys2Proof/Word.lean ====
section
/-! DEFINITION. The word types of the hardware (00_scope R4, R6): all values are unsigned. -/

namespace Sys2Proof

/-- A byte: a general register, a timer, a byte of memory, the immediate `nn`. -/
abbrev Byte := BitVec 8

/-- A 16-bit word: an opcode, `pc`, `I`, a stack slot. -/
abbrev Word := BitVec 16

/-- A 4-bit field: the immediate `n`, an opcode's category, the stack pointer. -/
abbrev Nibble := BitVec 4

/-- The index of a general register, a field `x` or `y` (10_state R11). -/
abbrev Reg := BitVec 4

/-- The 12-bit immediate `nnn` (30_encoding R61). -/
abbrev Addr12 := BitVec 12

end Sys2Proof
end

