-- ==== Sys2Proof/Decode.lean ====
section
/-! DEFINITION. The field cut, the decoder (total, strict, rejecting by name), the encoder, and the
opcode map as a table (30_encoding R60 to R66). -/

namespace Sys2Proof

/-- Why bytes are not an instruction. -/
inductive DecodeError where
  /-- The word matches no row of the opcode map (R66). -/
  | unknownOpcode (op : Word)
  /-- Fewer than the two bytes of an instruction (R60). -/
  | truncated
  deriving DecidableEq, Repr

/-! ### Fields (R61) -/

/-- `cat = op[15:12]`. -/
def fieldCat (op : Word) : Nibble := op.extractLsb' 12 4

/-- `x = op[11:8]`. -/
def fieldX (op : Word) : Reg := op.extractLsb' 8 4

/-- `y = op[7:4]`. -/
def fieldY (op : Word) : Reg := op.extractLsb' 4 4

/-- `n = op[3:0]`. -/
def fieldN (op : Word) : Nibble := op.extractLsb' 0 4

/-- `nn = op[7:0]`. -/
def fieldNn (op : Word) : Byte := op.extractLsb' 0 8

/-- `nnn = op[11:0]`. -/
def fieldNnn (op : Word) : Addr12 := op.extractLsb' 0 12

/-! ### Byte order (R60, 20_memory R42, R45) -/

/-- The opcode word of two consecutive bytes: the one at the lower address is the high byte. -/
def joinBytes (hi lo : Byte) : Word := hi ++ lo

/-- The byte of an opcode stored at the lower address. -/
def highByte (op : Word) : Byte := op.extractLsb' 8 8

/-- The byte of an opcode stored at the higher address. -/
def lowByte (op : Word) : Byte := op.extractLsb' 0 8

/-! ### Decoding -/

/-- Category 8, by its low nibble (R64 rows 10 to 18). -/
def decodeAlu (x y : Reg) : (n : Nat) → Option Instr
  | 0x0 => some (.ldReg x y)
  | 0x1 => some (.orReg x y)
  | 0x2 => some (.andReg x y)
  | 0x3 => some (.xorReg x y)
  | 0x4 => some (.addReg x y)
  | 0x5 => some (.subReg x y)
  | 0x6 => some (.shr x y)
  | 0x7 => some (.subn x y)
  | 0xE => some (.shl x y)
  | _ => none

/-- Category E, by its low byte (R64 rows 24 and 25). -/
def decodeKey (x : Reg) : (nn : Nat) → Option Instr
  | 0x9E => some (.skp x)
  | 0xA1 => some (.sknp x)
  | _ => none

/-- Category F, by its low byte (R64 rows 26 to 34). -/
def decodeMisc (x : Reg) : (nn : Nat) → Option Instr
  | 0x07 => some (.ldFromDt x)
  | 0x0A => some (.ldKey x)
  | 0x15 => some (.ldDt x)
  | 0x18 => some (.ldSt x)
  | 0x1E => some (.addI x)
  | 0x29 => some (.ldFont x)
  | 0x33 => some (.ldBcd x)
  | 0x55 => some (.storeRegs x)
  | 0x65 => some (.loadRegs x)
  | _ => none

/-- The decoder of a word: total, an instruction or none for an unrecognized word (R63, R66).
Dispatched on the category and then on the secondary discriminator, strict on every digit the
pattern fixes (conflict C3). -/
def decode (op : Word) : Option Instr :=
  match (fieldCat op).toNat with
  | 0x0 => if op = 0x00E0#16 then some .cls else if op = 0x00EE#16 then some .ret else none
  | 0x1 => some (.jp (fieldNnn op))
  | 0x2 => some (.call (fieldNnn op))
  | 0x3 => some (.seImm (fieldX op) (fieldNn op))
  | 0x4 => some (.sneImm (fieldX op) (fieldNn op))
  | 0x5 => if fieldN op = 0 then some (.seReg (fieldX op) (fieldY op)) else none
  | 0x6 => some (.ldImm (fieldX op) (fieldNn op))
  | 0x7 => some (.addImm (fieldX op) (fieldNn op))
  | 0x8 => decodeAlu (fieldX op) (fieldY op) (fieldN op).toNat
  | 0x9 => if fieldN op = 0 then some (.sneReg (fieldX op) (fieldY op)) else none
  | 0xA => some (.ldI (fieldNnn op))
  | 0xB => some (.jpV0 (fieldNnn op))
  | 0xC => some (.rnd (fieldX op) (fieldNn op))
  | 0xD => some (.drw (fieldX op) (fieldY op) (fieldN op))
  | 0xE => decodeKey (fieldX op) (fieldNn op).toNat
  | _ => decodeMisc (fieldX op) (fieldNn op).toNat

/-- The instruction at the head of a list of bytes, with the bytes after it (R60: two bytes each), or
a rejection by name. -/
def decodeBytes : List Byte → Except DecodeError (Instr × List Byte)
  | hi :: lo :: rest =>
    match decode (joinBytes hi lo) with
    | some i => .ok (i, rest)
    | none => .error (.unknownOpcode (joinBytes hi lo))
  | _ => .error .truncated

/-- The instruction the decoder reads from a row's bits as spec/opcode_table.json numbers them: bits
above `nbits` are 0, and the one word is laid out high byte first. -/
def decodeTableWord (nbits w : Nat) : Option Instr :=
  let op : Word := BitVec.ofNat 16 (w % 2 ^ nbits)
  match decodeBytes [highByte op, lowByte op] with
  | .ok (i, _) => some i
  | .error _ => none

/-! ### Encoding (R62: the six formats) -/

/-- Format NNN. -/
def wordNnn (cat : Nibble) (nnn : Addr12) : Word := cat ++ nnn

/-- Format XNN, and format X with `nn` fixed. -/
def wordXnn (cat : Nibble) (x : Reg) (nn : Byte) : Word := (cat ++ x) ++ nn

/-- Format XYN, and format XY with `n` fixed. -/
def wordXyn (cat : Nibble) (x y : Reg) (n : Nibble) : Word := (cat ++ x) ++ (y ++ n)

/-- The word of an instruction, from the opcode map's patterns (R64). -/
def encode : Instr → Word
  | .cls => 0x00E0#16
  | .ret => 0x00EE#16
  | .jp nnn => wordNnn 0x1 nnn
  | .call nnn => wordNnn 0x2 nnn
  | .seImm x nn => wordXnn 0x3 x nn
  | .sneImm x nn => wordXnn 0x4 x nn
  | .seReg x y => wordXyn 0x5 x y 0x0
  | .ldImm x nn => wordXnn 0x6 x nn
  | .addImm x nn => wordXnn 0x7 x nn
  | .ldReg x y => wordXyn 0x8 x y 0x0
  | .orReg x y => wordXyn 0x8 x y 0x1
  | .andReg x y => wordXyn 0x8 x y 0x2
  | .xorReg x y => wordXyn 0x8 x y 0x3
  | .addReg x y => wordXyn 0x8 x y 0x4
  | .subReg x y => wordXyn 0x8 x y 0x5
  | .shr x y => wordXyn 0x8 x y 0x6
  | .subn x y => wordXyn 0x8 x y 0x7
  | .shl x y => wordXyn 0x8 x y 0xE
  | .sneReg x y => wordXyn 0x9 x y 0x0
  | .ldI nnn => wordNnn 0xA nnn
  | .jpV0 nnn => wordNnn 0xB nnn
  | .rnd x nn => wordXnn 0xC x nn
  | .drw x y n => wordXyn 0xD x y n
  | .skp x => wordXnn 0xE x 0x9E
  | .sknp x => wordXnn 0xE x 0xA1
  | .ldFromDt x => wordXnn 0xF x 0x07
  | .ldKey x => wordXnn 0xF x 0x0A
  | .ldDt x => wordXnn 0xF x 0x15
  | .ldSt x => wordXnn 0xF x 0x18
  | .addI x => wordXnn 0xF x 0x1E
  | .ldFont x => wordXnn 0xF x 0x29
  | .ldBcd x => wordXnn 0xF x 0x33
  | .storeRegs x => wordXnn 0xF x 0x55
  | .loadRegs x => wordXnn 0xF x 0x65

/-- The two bytes of an instruction in memory order (R60). -/
def encodeBytes (i : Instr) : List Byte := [highByte (encode i), lowByte (encode i)]

/-! ### The opcode map as a table (R64) -/

/-- One row of the opcode map: its number, and the words `op` with `op & mask = value`. -/
structure OpcodeRow where
  row : Nat
  mask : Word
  value : Word
  deriving DecidableEq, Repr

/-- A word matches a row when it equals the row's `match` under its mask (R63). -/
def OpcodeRow.accepts (r : OpcodeRow) (op : Word) : Bool := op &&& r.mask == r.value

/-- Rows 1 to 9. -/
def opcodeMapLow : List OpcodeRow :=
  [⟨1, 0xFFFF, 0x00E0⟩, ⟨2, 0xFFFF, 0x00EE⟩, ⟨3, 0xF000, 0x1000⟩, ⟨4, 0xF000, 0x2000⟩,
   ⟨5, 0xF000, 0x3000⟩, ⟨6, 0xF000, 0x4000⟩, ⟨7, 0xF00F, 0x5000⟩, ⟨8, 0xF000, 0x6000⟩,
   ⟨9, 0xF000, 0x7000⟩]

/-- Rows 10 to 23. -/
def opcodeMapMid : List OpcodeRow :=
  [⟨10, 0xF00F, 0x8000⟩, ⟨11, 0xF00F, 0x8001⟩, ⟨12, 0xF00F, 0x8002⟩, ⟨13, 0xF00F, 0x8003⟩,
   ⟨14, 0xF00F, 0x8004⟩, ⟨15, 0xF00F, 0x8005⟩, ⟨16, 0xF00F, 0x8006⟩, ⟨17, 0xF00F, 0x8007⟩,
   ⟨18, 0xF00F, 0x800E⟩, ⟨19, 0xF00F, 0x9000⟩, ⟨20, 0xF000, 0xA000⟩, ⟨21, 0xF000, 0xB000⟩,
   ⟨22, 0xF000, 0xC000⟩, ⟨23, 0xF000, 0xD000⟩]

/-- Rows 24 to 34. -/
def opcodeMapHigh : List OpcodeRow :=
  [⟨24, 0xF0FF, 0xE09E⟩, ⟨25, 0xF0FF, 0xE0A1⟩, ⟨26, 0xF0FF, 0xF007⟩, ⟨27, 0xF0FF, 0xF00A⟩,
   ⟨28, 0xF0FF, 0xF015⟩, ⟨29, 0xF0FF, 0xF018⟩, ⟨30, 0xF0FF, 0xF01E⟩, ⟨31, 0xF0FF, 0xF029⟩,
   ⟨32, 0xF0FF, 0xF033⟩, ⟨33, 0xF0FF, 0xF055⟩, ⟨34, 0xF0FF, 0xF065⟩]

/-- The opcode map: the rows of R64 in order. The decoder does not use it; it is the table the
decoder is held against. -/
def opcodeMap : List OpcodeRow := opcodeMapLow ++ (opcodeMapMid ++ opcodeMapHigh)

/-- The row of the opcode map an instruction belongs to (R64). -/
def rowOf : Instr → Nat
  | .cls => 1
  | .ret => 2
  | .jp _ => 3
  | .call _ => 4
  | .seImm _ _ => 5
  | .sneImm _ _ => 6
  | .seReg _ _ => 7
  | .ldImm _ _ => 8
  | .addImm _ _ => 9
  | .ldReg _ _ => 10
  | .orReg _ _ => 11
  | .andReg _ _ => 12
  | .xorReg _ _ => 13
  | .addReg _ _ => 14
  | .subReg _ _ => 15
  | .shr _ _ => 16
  | .subn _ _ => 17
  | .shl _ _ => 18
  | .sneReg _ _ => 19
  | .ldI _ => 20
  | .jpV0 _ => 21
  | .rnd _ _ => 22
  | .drw _ _ _ => 23
  | .skp _ => 24
  | .sknp _ => 25
  | .ldFromDt _ => 26
  | .ldKey _ => 27
  | .ldDt _ => 28
  | .ldSt _ => 29
  | .addI _ => 30
  | .ldFont _ => 31
  | .ldBcd _ => 32
  | .storeRegs _ => 33
  | .loadRegs _ => 34

/-- The rows of the opcode map a word matches (R63: never more than one). -/
def matchingRows (op : Word) : List Nat := (opcodeMap.filter (·.accepts op)).map (·.row)

end Sys2Proof
end

