-- ==== Sys2Proof/Config.lean ====
section
/-! DEFINITION. What is fixed for every instance of the hardware (00_scope R4) and the two values
the spec leaves open to a draw (00_scope R5). -/

namespace Sys2Proof

/-- `MEM_SIZE` (R4). -/
abbrev Config.memSize : Nat := 4096

/-- `FONT_BASE`: the font table's address (R4). -/
abbrev Config.fontBase : Nat := 0x000

/-- `PROG_BASE`: the program's load address and the reset `pc` (R4). -/
abbrev Config.progBase : Nat := 0x200

/-- `PROG_MAX`: the largest program image, in bytes (R4). -/
abbrev Config.progMax : Nat := 3584

/-- The number of framebuffer pixels, 64 columns by 32 rows (R4). -/
abbrev Config.pixels : Nat := 2048

/-- FREE VALUE (assumption 2): the byte `random_byte()` returns at the k-th draw (R5, R131; D12). -/
opaque Config.rnd : Nat → Byte

/-- FREE VALUE (assumption 3): what the k-th draw gives for `KEY_CHOICE` (R5, R163; D11). -/
opaque Config.keyChoice : Nat → Nat

end Sys2Proof
end

