-- ==== Sys2Proof/Machine/State.lean ====
section
/-! DEFINITION. The Machine State (10_state R10), the faults and refusals, and the state after
reset with an empty program image (10_state R25, 70_reset_and_hazards R200). Plain data. -/

namespace Sys2Proof.Machine

/-- Memory as the list of the cells that differ from what an unlisted address reads as (`resetByte`),
by rising address; its
canonical form is `Memory.wf`. -/
abbrev Memory := List Host.Cell

/-- The Machine State: everything R10 lists, and the model's own draw counter. -/
structure State where
  /-- `memory`: 4096 bytes (R23). -/
  mem : Memory
  /-- V0..VF (R11). -/
  v : Vector Byte 16
  /-- The address register I (R14). -/
  i : Word
  /-- The program counter (R13). -/
  pc : Word
  /-- The call stack's slots (R15). -/
  stack : Vector Word 16
  /-- The stack pointer, 4 bits (R16; D5). -/
  sp : BitVec 4
  /-- The keypad: entry k is true while key k is pressed (R21). Written by the driver only. -/
  keypad : Vector Bool 16
  /-- The framebuffer, row by row: bit `cx` of row `cy` is pixel `fb[cx + 64*cy]` (R22). -/
  fb : Vector (BitVec 64) 32
  /-- The delay timer DT (R17). -/
  dt : Byte
  /-- The sound timer ST (R18). -/
  st : Byte
  /-- `redraw_pending` (R19). -/
  redrawPending : Bool
  /-- `sound_pending` (R20). -/
  soundPending : Bool
  /-- THE MODEL'S OWN (assumption 4): how many draws have been consumed; it indexes the free values
  of Config. -/
  draws : Nat
  deriving DecidableEq, Repr

/-- What an `OutOfBounds` fault was about (60_exceptions R170; D18). -/
inductive BoundsKind where
  | fetch
  | data
  | framebuffer
  | keypad
  deriving DecidableEq, Repr

/-- The synchronous faults of a step, all of them (60_exceptions R170). Each is the spec's own; the
step that raises one changes nothing (R171). -/
inductive Fault where
  /-- Raised by the fetch of any step at `pc >= 4095` (R81), by Dxyn, Fx33, Fx55 and Fx65 whose last
  data address is above 4095 (R44), by Dxyn for a set bit at index 2048 or above (R152), by Ex9E and
  ExA1 for a key number above 15 (R160, R161). The value is the pc, the address, the index, the key
  number. Safe: the machine stops where the spec says the step faults. -/
  | outOfBounds (kind : BoundsKind) (value : Nat)
  /-- Raised by the decode of a word no row of the opcode map matches (R66, R82). Safe: as above. -/
  | unknownOpcode (op : Word)
  /-- Raised by 2nnn at `sp = 15` (R103). Safe: as above. -/
  | stackOverflow
  /-- Raised by 00EE at `sp = 0` (R101). Safe: as above. -/
  | stackUnderflow
  deriving DecidableEq, Repr

/-- The instructions without a meaning. -/
inductive Refusal where
  /-- Raised by an arm of `exec` whose instruction has no meaning yet; every arm has one, so nothing
  raises it. Safe: it stops. -/
  | notModelled (mnemonic : String)
  deriving DecidableEq, Repr

/-- What a step, or the execute phase of one instruction, ends in. -/
abbrev Result := Host.Outcome State Fault Refusal

/-- The state after reset with the default font table (assumption 1) and an empty program image
(R25, R200, R201): everything zero but `pc`, and no byte of memory listed. `State.resetWith` gives the
state for any font table and any image. -/
def State.reset : State where
  mem := []
  v := Vector.replicate 16 0
  i := 0
  pc := 0x200
  stack := Vector.replicate 16 0
  sp := 0
  keypad := Vector.replicate 16 false
  fb := Vector.replicate 32 0
  dt := 0
  st := 0
  redrawPending := false
  soundPending := false
  draws := 0

end Sys2Proof.Machine
end

