-- ==== Sys2Proof/Machine/Font.lean ====
section
/-! DEFINITION. The configuration table FONT, its default, and what an unlisted byte of memory reads
as (00_scope R5, 10_state R25, R26). -/

namespace Sys2Proof.Machine

/-- `FONT[0..4]`: glyph 0, which every font table has (R26). -/
def glyphZero : List Byte := [0xF0, 0x90, 0x90, 0x90, 0xF0]

/-- The configuration table FONT of 80 bytes (R5, R26): `FONT[0..4]` is required, so what a
configuration gives is `FONT[5..79]`, glyphs 1 to F. Reset takes one (`State.resetWith`). -/
structure FontTable where
  /-- `FONT[5..79]`, five bytes per glyph. -/
  glyphs : Vector Byte 75
  deriving DecidableEq, Repr

/-- `FONT[0..79]`. -/
def FontTable.bytes (font : FontTable) : List Byte := glyphZero ++ font.glyphs.toList

/-- The default of `FONT[5..79]`. PRESUMED (assumption 1): the table of R26, which the spec marks as
general knowledge (D16, G1). -/
def defaultGlyphs : List Byte :=
  [0x20, 0x60, 0x20, 0x20, 0x70,  0xF0, 0x10, 0xF0, 0x80, 0xF0,  0xF0, 0x10, 0xF0, 0x10, 0xF0,
   0x90, 0x90, 0xF0, 0x10, 0x10,  0xF0, 0x80, 0xF0, 0x10, 0xF0] ++
  ([0xF0, 0x80, 0xF0, 0x90, 0xF0,  0xF0, 0x10, 0x20, 0x40, 0x40,  0xF0, 0x90, 0xF0, 0x90, 0xF0,
    0xF0, 0x90, 0xF0, 0x10, 0xF0,  0xF0, 0x90, 0xF0, 0x90, 0x90] ++
   [0xE0, 0x90, 0xE0, 0x90, 0xE0,  0xF0, 0x80, 0x80, 0x80, 0xF0,  0xE0, 0x90, 0x90, 0x90, 0xE0,
    0xF0, 0x80, 0xF0, 0x80, 0xF0,  0xF0, 0x80, 0xF0, 0x80, 0x80])

/-- The font table of a machine to which no other is given (R26; assumption 1). -/
def defaultFont : FontTable := ⟨⟨defaultGlyphs.toArray, rfl⟩⟩

/-- What an unlisted address of `Memory` reads as: the reset contents with the default font and an
empty image, the font from 0x000 and 0 elsewhere (R25, R48). A reset with another font lists the bytes
in which that font differs. -/
def resetByte (a : Nat) : Byte := (glyphZero ++ defaultGlyphs).getD a 0

end Sys2Proof.Machine
end

