-- ==== Sys2Proof/Machine/Ops.lean ====
section
/-! DEFINITION. The named operations over memory, registers, stack, keypad, framebuffer, timers,
flags and draws; the fetch; raising a fault. Every read and write of the state goes through these. -/

namespace Sys2Proof.Machine

/-! ### Memory (20_memory R40 to R43) -/

/-- `memory[a]`: the listed value, or the reset contents. -/
def Memory.read : Memory → Nat → Byte
  | [], a => resetByte a
  | (b, w) :: m, a => if a = b then w else Memory.read m a

/-- The cell of address `a` set to `w`, keeping the addresses rising. -/
def Memory.insert : Memory → Nat → Byte → Memory
  | [], a, w => [(a, w)]
  | (b, u) :: m, a, w =>
    if a < b then (a, w) :: (b, u) :: m
    else if a = b then (a, w) :: m
    else (b, u) :: Memory.insert m a w

/-- The list without any cell of address `a`. -/
def Memory.erase : Memory → Nat → Memory
  | [], _ => []
  | (b, u) :: m, a => if a = b then Memory.erase m a else (b, u) :: Memory.erase m a

/-- `memory[a] <- w` (R43). A value equal to the reset contents leaves no cell. No instruction
writes at an address that does not exist, since R44's check comes first; such a write is void. -/
def Memory.write (m : Memory) (a : Nat) (w : Byte) : Memory :=
  if a < Config.memSize then
    if w = resetByte a then m.erase a else m.insert a w
  else m

/-- Consecutive byte writes from address `a` upwards. -/
def Memory.writeBytes : Memory → Nat → List Byte → Memory
  | m, _, [] => m
  | m, a, w :: ws => Memory.writeBytes (m.write a w) (a + 1) ws

/-- The canonical form from address `lo` on: addresses strictly rising and existing, no cell at its
reset contents. -/
def Memory.wfFrom : Nat → Memory → Bool
  | _, [] => true
  | lo, (a, w) :: m =>
    decide (lo ≤ a) && decide (a < Config.memSize) && decide (w ≠ resetByte a) &&
      Memory.wfFrom (a + 1) m

/-- The canonical form of memory. -/
def Memory.wf (m : Memory) : Bool := Memory.wfFrom 0 m

/-! ### Raising a fault (60_exceptions R171, R183) -/

/-- Fault entry, the one operation every fault goes through: the step ends with the fault. Nothing
is saved, no mode changes, no handler is entered; the state stays as it was before the step. There
is no return from it (R184). -/
def raise (f : Fault) : Result := .fault f

/-- `require … else raise …`: the fault if a precondition failed, else the effect (R83). -/
def guarded (f : Option Fault) (r : Result) : Result :=
  match f with
  | some f => raise f
  | none => r

/-! ### Registers (10_state R11, R13, R14) -/

/-- `V[x]`. -/
def State.getV (s : State) (x : Reg) : Byte := s.v[x.toNat]'x.isLt

/-- `V[x] <- b`. -/
def State.setV (s : State) (x : Reg) (b : Byte) : State := { s with v := s.v.set x.toNat b x.isLt }

/-- `I <- w`. -/
def State.setI (s : State) (w : Word) : State := { s with i := w }

/-- `pc <- w`. -/
def State.setPc (s : State) (w : Word) : State := { s with pc := w }

/-- `pc <- (pc + k) mod 65536` (40_step_cycle R86). -/
def State.advance (s : State) (k : Word) : State := s.setPc (s.pc + k)

/-- The skip policy: +4 if the condition holds, else +2 (R86, R87). -/
def State.skipIf (s : State) (c : Bool) : State := s.advance (if c then 4 else 2)

/-! ### Stack (10_state R15, R16) -/

/-- `stack[k]`. -/
def State.getSlot (s : State) (k : BitVec 4) : Word := s.stack[k.toNat]'k.isLt

/-- `stack[k] <- w`. -/
def State.setSlot (s : State) (k : BitVec 4) (w : Word) : State :=
  { s with stack := s.stack.set k.toNat w k.isLt }

/-- `sp <- k`. -/
def State.setSp (s : State) (k : BitVec 4) : State := { s with sp := k }

/-! ### Keypad (10_state R21) -/

/-- `keypad[k]`. -/
def State.key (s : State) (k : BitVec 4) : Bool := s.keypad[k.toNat]'k.isLt

/-- The keys pressed, by rising number (45_keypad_timers R163). -/
def State.pressedKeys (s : State) : List (BitVec 4) :=
  ((List.range 16).map (BitVec.ofNat 4)).filter s.key

/-! ### Framebuffer (10_state R22, 44_graphics R150) -/

/-- `fb[j]`; false for an index outside the framebuffer, which no instruction reads. -/
def State.pixel (s : State) (j : Nat) : Bool :=
  if h : j / 64 < 32 then (s.fb[j / 64]'h).getLsbD (j % 64) else false

/-- `fb[j] <- fb[j] xor 1`; void for an index outside the framebuffer, which R152's check excludes. -/
def State.togglePixel (s : State) (j : Nat) : State :=
  if h : j / 64 < 32 then
    { s with fb := s.fb.set (j / 64) ((s.fb[j / 64]'h) ^^^ BitVec.twoPow 64 (j % 64)) h }
  else s

/-- Every pixel off (R151). -/
def State.clearPixels (s : State) : State := { s with fb := Vector.replicate 32 0 }

/-! ### Timers and transient flags (10_state R17 to R20) -/

/-- `DT <- b`. -/
def State.setDt (s : State) (b : Byte) : State := { s with dt := b }

/-- `ST <- b`. -/
def State.setSt (s : State) (b : Byte) : State := { s with st := b }

/-- `redraw_pending <- b`. -/
def State.setRedraw (s : State) (b : Bool) : State := { s with redrawPending := b }

/-- `sound_pending <- b`. -/
def State.setSound (s : State) (b : Bool) : State := { s with soundPending := b }

/-- Phase 4 of the step: both transient flags cleared (40_step_cycle R84). -/
def State.clearFlags (s : State) : State := (s.setRedraw false).setSound false

/-- Phase 6 of the step, the timer tick (40_step_cycle R88). -/
def State.tick (s : State) : State :=
  let s := if 0 < s.dt.toNat then s.setDt (s.dt - 1) else s
  if 0 < s.st.toNat then (s.setSt (s.st - 1)).setSound true else s

/-! ### Draws (00_scope R5, 40_step_cycle R89) -/

/-- The draw counter after one draw. -/
def State.nextDraw (s : State) : State := { s with draws := s.draws + 1 }

/-- The byte the next `rnd` draw gives: a free value (assumption 2). -/
def State.rndByte (s : State) : Byte := Config.rnd s.draws

/-- The key the next `KEY_CHOICE` draw gives among `k` and `ks`: any one of them, free (assumption
3). -/
def State.chosenKey (s : State) (k : BitVec 4) (ks : List (BitVec 4)) : BitVec 4 :=
  (k :: ks).getD (Config.keyChoice s.draws % (ks.length + 1)) k

/-! ### Fetch (40_step_cycle R81, 20_memory R42) -/

/-- Phase 1 of the step: the two bytes at `pc`, big-endian, or `OutOfBounds(fetch, pc)`. The sum is
not wrapped (D2). It changes nothing. -/
def State.fetch (s : State) : Except Fault Word :=
  if s.pc.toNat + 1 ≥ Config.memSize then .error (.outOfBounds .fetch s.pc.toNat)
  else .ok (joinBytes (s.mem.read s.pc.toNat) (s.mem.read (s.pc.toNat + 1)))

/-- The two bytes of a word stored where the fetch reads its next opcode, high byte first. -/
def State.placeWord (s : State) (op : Word) : State :=
  { s with mem := s.mem.writeBytes s.pc.toNat [highByte op, lowByte op] }

end Sys2Proof.Machine
end

