-- ==== Sys2Proof/Machine/Cycle.lean ====
section
/-! DEFINITION. The phases of a step around the execution of one instruction (40_step_cycle R80). -/

namespace Sys2Proof.Machine

/-- Phase 6 after an instruction that did not stop (R88). -/
def afterExec : Result → Result
  | .next t => .next t.tick
  | .fault f => raise f
  | .refused r => .refused r

/-- Fetch (R81), decode or `UnknownOpcode` (R82), then the instruction on the state with both transient flags cleared, then the
timer tick (R80). `run` is the check and execute phase of an instruction. No precondition reads a
transient flag, so clearing them before the check is not visible (assumption 5). -/
def cycleWith (run : Instr → State → Result) (s : State) : Result :=
  match s.fetch with
  | .error f => raise f
  | .ok op =>
    match decode op with
    | none => raise (.unknownOpcode op)
    | some i => afterExec (run i s.clearFlags)

end Sys2Proof.Machine
end

