-- ==== Sys2Proof/Machine/Operands.lean ====
section
/-! DEFINITION. The operand forms: immediates, the data address `I + offset` and its bounds check,
key numbers, the registers V0..Vx, decimal digits, sprite pixels. -/

namespace Sys2Proof.Machine

/-- VF, the flag register (10_state R12). -/
abbrev VF : Reg := 0xF#4

/-- `zext_16(nnn)` (30_encoding R65). -/
def zextAddr (nnn : Addr12) : Word := nnn.setWidth 16

/-- `zext_16(b)` of a register's value (30_encoding R65). -/
def zextByte (b : Byte) : Word := b.setWidth 16

/-- The data address `I + offset`, on unbounded integers (43_index_memory R146, 20_memory R44). -/
abbrev State.dataAddr (s : State) (offset : Nat) : Nat := s.i.toNat + offset

/-- R44's check of `len` consecutive bytes from I: the last address must exist. Nothing is checked
when there is no byte. -/
def State.dataFault (s : State) : (len : Nat) → Option Fault
  | 0 => none
  | last + 1 =>
    if s.dataAddr last > 4095 then some (.outOfBounds .data (s.dataAddr last)) else none

/-- The key number `V[x]` must be at most 15; it is not masked (45_keypad_timers R160; D10). -/
def State.keyFault (s : State) (x : Reg) : Option Fault :=
  if (s.getV x).toNat > 15 then some (.outOfBounds .keypad (s.getV x).toNat) else none

/-- The keypad entry `keypad[V[x]]`, for a key number that passed `keyFault`. -/
def State.keyOf (s : State) (x : Reg) : Bool := s.key ((s.getV x).setWidth 4)

/-- The values of V0..Vx, x inclusive (43_index_memory R144). -/
def State.regsThrough (s : State) (x : Reg) : List Byte :=
  (List.range (x.toNat + 1)).map fun k => s.getV (BitVec.ofNat 4 k)

/-- `V[0]..V[count-1]` loaded from memory at `base`, ascending (43_index_memory R145). -/
def State.loadFrom (s : State) (base : Nat) : (count : Nat) → State
  | 0 => s
  | k + 1 =>
    let t := State.loadFrom s base k
    t.setV (BitVec.ofNat 4 k) (t.mem.read (base + k))

/-- The decimal digits of a byte: hundreds, tens, ones (43_index_memory R143). -/
def bcdDigits (b : Byte) : List Byte :=
  [BitVec.ofNat 8 (b.toNat / 100), BitVec.ofNat 8 (b.toNat / 10 % 10), BitVec.ofNat 8 (b.toNat % 10)]

/-- The linear index of sprite row r, bit column c: never reduced (44_graphics R150; D8). -/
def spriteIndex (vx vy r c : Nat) : Nat := vx + c + 64 * (vy + r)

/-- The bit of a sprite byte in column c: bit 7 is the leftmost pixel (44_graphics R152). -/
def spriteBit (b : Byte) (c : Nat) : Bool := b.getLsbD (7 - c)

/-- The linear indices of the set bits of one sprite row, left to right. -/
def spriteRow (b : Byte) (vx vy r : Nat) : List Nat :=
  ((List.range 8).filter (spriteBit b)).map (spriteIndex vx vy r)

/-- The linear indices of a sprite's set bits in scan order: rows down, columns left to right. -/
def State.spritePixels (s : State) (vx vy rows : Nat) : List Nat :=
  (List.range rows).flatMap fun r => spriteRow (s.mem.read (s.dataAddr r)) vx vy r

/-- The framebuffer check: the first set bit in scan order whose index is 2048 or above (R152, R181). -/
def pixelFault (js : List Nat) : Option Fault :=
  (js.find? fun j => decide (Config.pixels ≤ j)).map (Fault.outOfBounds .framebuffer)

end Sys2Proof.Machine
end

