-- ==== Sys2Proof/Machine/Flags.lean ====
section
/-! DEFINITION. The values written to VF as a flag (10_state R12), and the flag-first order of the
instructions that write one (42_load_arith_logic R133). -/

namespace Sys2Proof.Machine

/-- A flag's value as a register's. -/
def flagByte (c : Bool) : Byte := if c then 1 else 0

/-- Carry of 8xy4: the exact sum is above 255 (R126). -/
def carryFlag (a b : Byte) : Byte := flagByte (decide (a.toNat + b.toNat > 255))

/-- No borrow of `a - b`: `a` strictly greater (R127, R129, R132). -/
def noBorrowFlag (a b : Byte) : Byte := flagByte (decide (a.toNat > b.toNat))

/-- The bit a right shift drops (R128). -/
def lowBitFlag (a : Byte) : Byte := a &&& 1

/-- The bit a left shift drops (R130). -/
def highBitFlag (a : Byte) : Byte := (a >>> 7) &&& 1

/-- The flag is written to VF first; the result is then computed from the registers as that write
left them, and written to `V[x]` (R133; D15, assumption 8). -/
def State.flagThenResult (s : State) (x y : Reg) (flag result : Byte → Byte → Byte) : State :=
  let t := s.setV VF (flag (s.getV x) (s.getV y))
  t.setV x (result (t.getV x) (t.getV y))

/-- One set sprite bit drawn: VF becomes 1 if the pixel is on, then the pixel toggles (44_graphics
R152). -/
def State.drawPixel (s : State) (j : Nat) : State :=
  (if s.pixel j then s.setV VF 1 else s).togglePixel j

end Sys2Proof.Machine
end

