-- ==== Sys2Proof/Machine/ControlFlow.lean ====
section
/-! DEFINITION. 41_control_flow: 00EE, 1nnn, 2nnn, 3xnn, 4xnn, 5xy0, 9xy0, Bnnn. -/

namespace Sys2Proof.Machine

/-- 00EE (R101). -/
def execRet (s : State) : Result :=
  if s.sp = 0 then raise .stackUnderflow
  else
    let t := s.setPc (s.getSlot s.sp)
    .next ((t.setSp (t.sp - 1)).advance 2)

/-- 1nnn (R102). -/
def execJp (nnn : Addr12) (s : State) : Result := .next (s.setPc (zextAddr nnn))

/-- 2nnn (R103): the increment comes before the write, and the saved pc is the call's own. -/
def execCall (nnn : Addr12) (s : State) : Result :=
  if s.sp = 15 then raise .stackOverflow
  else
    let t := s.setSp (s.sp + 1)
    .next ((t.setSlot t.sp t.pc).setPc (zextAddr nnn))

/-- 3xnn (R104). -/
def execSeImm (x : Reg) (nn : Byte) (s : State) : Result := .next (s.skipIf (s.getV x == nn))

/-- 4xnn (R105). -/
def execSneImm (x : Reg) (nn : Byte) (s : State) : Result := .next (s.skipIf (s.getV x != nn))

/-- 5xy0 (R106). -/
def execSeReg (x y : Reg) (s : State) : Result := .next (s.skipIf (s.getV x == s.getV y))

/-- 9xy0 (R107). -/
def execSneReg (x y : Reg) (s : State) : Result := .next (s.skipIf (s.getV x != s.getV y))

/-- Bnnn (R108): the sum is not reduced to 12 bits. -/
def execJpV0 (nnn : Addr12) (s : State) : Result :=
  .next (s.setPc (zextAddr nnn + zextByte (s.getV 0)))

end Sys2Proof.Machine
end

