-- ==== Sys2Proof/Machine/Graphics.lean ====
section
/-! DEFINITION. 44_graphics: 00E0, Dxyn. -/

namespace Sys2Proof.Machine

/-- 00E0 (R151): `redraw_pending` is set whether or not a pixel changed (conflict C8). -/
def execCls (s : State) : Result := .next ((s.clearPixels.setRedraw true).advance 2)

/-- Dxyn (R152): coordinates are read before VF is cleared (D9, assumption 9); the data check comes
before the framebuffer check, both before any change. -/
def execDrw (x y : Reg) (n : Nibble) (s : State) : Result :=
  let js := s.spritePixels (s.getV x).toNat (s.getV y).toNat n.toNat
  guarded (s.dataFault n.toNat)
    (guarded (pixelFault js)
      (.next (((js.foldl State.drawPixel (s.setV VF 0)).setRedraw true).advance 2)))

end Sys2Proof.Machine
end

