-- ==== Sys2Proof/Machine/IndexMemory.lean ====
section
/-! DEFINITION. 43_index_memory: Annn, Fx1E, Fx29, Fx33, Fx55, Fx65. -/

namespace Sys2Proof.Machine

/-- Annn (R140). -/
def execLdI (nnn : Addr12) (s : State) : Result := .next ((s.setI (zextAddr nnn)).advance 2)

/-- Fx1E (R141): wraps at 16 bits, VF unaffected. -/
def execAddI (x : Reg) (s : State) : Result :=
  .next ((s.setI (s.i + zextByte (s.getV x))).advance 2)

/-- Fx29 (R142): `V[x]` is not reduced to its low nibble. -/
def execLdFont (x : Reg) (s : State) : Result :=
  .next ((s.setI (zextByte (s.getV x) * 5)).advance 2)

/-- Fx33 (R143): three digits at I, the hundreds lowest. -/
def execLdBcd (x : Reg) (s : State) : Result :=
  guarded (s.dataFault 3)
    (.next (State.advance { s with mem := s.mem.writeBytes (s.dataAddr 0) (bcdDigits (s.getV x)) } 2))

/-- Fx55 (R144): V0..Vx from I upwards; I stays. -/
def execStoreRegs (x : Reg) (s : State) : Result :=
  guarded (s.dataFault (x.toNat + 1))
    (.next (State.advance { s with mem := s.mem.writeBytes (s.dataAddr 0) (s.regsThrough x) } 2))

/-- Fx65 (R145): V0..Vx from memory at I upwards; I stays. -/
def execLoadRegs (x : Reg) (s : State) : Result :=
  guarded (s.dataFault (x.toNat + 1))
    (.next ((s.loadFrom (s.dataAddr 0) (x.toNat + 1)).advance 2))

end Sys2Proof.Machine
end

