-- ==== Sys2Proof/Machine/KeypadTimers.lean ====
section
/-! DEFINITION. 45_keypad_timers: Ex9E, ExA1, Fx07, Fx0A, Fx15, Fx18. The tick that follows each is
phase 6 of the step. -/

namespace Sys2Proof.Machine

/-- Ex9E (R160). -/
def execSkp (x : Reg) (s : State) : Result := guarded (s.keyFault x) (.next (s.skipIf (s.keyOf x)))

/-- ExA1 (R161). -/
def execSknp (x : Reg) (s : State) : Result :=
  guarded (s.keyFault x) (.next (s.skipIf (!s.keyOf x)))

/-- Fx07 (R162). -/
def execLdFromDt (x : Reg) (s : State) : Result := .next ((s.setV x s.dt).advance 2)

/-- Fx0A (R163): no key pressed, nothing changes and `pc` stays; one key, that key; several, a draw
among them. No waiting state is kept (D14). -/
def execLdKey (x : Reg) (s : State) : Result :=
  match s.pressedKeys with
  | [] => .next s
  | [k] => .next ((s.setV x (k.setWidth 8)).advance 2)
  | k :: ks => .next ((s.nextDraw.setV x ((s.chosenKey k ks).setWidth 8)).advance 2)

/-- Fx15 (R164). -/
def execLdDt (x : Reg) (s : State) : Result := .next ((s.setDt (s.getV x)).advance 2)

/-- Fx18 (R165). -/
def execLdSt (x : Reg) (s : State) : Result := .next ((s.setSt (s.getV x)).advance 2)

end Sys2Proof.Machine
end

