-- ==== Sys2Proof/Machine/LoadArithLogic.lean ====
section
/-! DEFINITION. 42_load_arith_logic: 6xnn, 7xnn, 8xy0 to 8xy7, 8xyE, Cxnn. -/

namespace Sys2Proof.Machine

/-- 6xnn (R120). -/
def execLdImm (x : Reg) (nn : Byte) (s : State) : Result := .next ((s.setV x nn).advance 2)

/-- 7xnn (R121): no flag. -/
def execAddImm (x : Reg) (nn : Byte) (s : State) : Result :=
  .next ((s.setV x (s.getV x + nn)).advance 2)

/-- 8xy0 (R122). -/
def execLdReg (x y : Reg) (s : State) : Result := .next ((s.setV x (s.getV y)).advance 2)

/-- 8xy1 (R123): no flag. -/
def execOrReg (x y : Reg) (s : State) : Result :=
  .next ((s.setV x (s.getV x ||| s.getV y)).advance 2)

/-- 8xy2 (R124): no flag. -/
def execAndReg (x y : Reg) (s : State) : Result :=
  .next ((s.setV x (s.getV x &&& s.getV y)).advance 2)

/-- 8xy3 (R125): no flag. -/
def execXorReg (x y : Reg) (s : State) : Result :=
  .next ((s.setV x (s.getV x ^^^ s.getV y)).advance 2)

/-- 8xy4 (R126). -/
def execAddReg (x y : Reg) (s : State) : Result :=
  .next ((s.flagThenResult x y carryFlag (fun a b => a + b)).advance 2)

/-- 8xy5 (R127). -/
def execSubReg (x y : Reg) (s : State) : Result :=
  .next ((s.flagThenResult x y noBorrowFlag (fun a b => a - b)).advance 2)

/-- 8xy6 (R128): `y` is not used. -/
def execShr (x y : Reg) (s : State) : Result :=
  .next ((s.flagThenResult x y (fun a _ => lowBitFlag a) (fun a _ => a >>> 1)).advance 2)

/-- 8xy7 (R129). -/
def execSubn (x y : Reg) (s : State) : Result :=
  .next ((s.flagThenResult x y (fun a b => noBorrowFlag b a) (fun a b => b - a)).advance 2)

/-- 8xyE (R130): `y` is not used. -/
def execShl (x y : Reg) (s : State) : Result :=
  .next ((s.flagThenResult x y (fun a _ => highBitFlag a) (fun a _ => a <<< 1)).advance 2)

/-- Cxnn (R131): a fresh draw, masked. -/
def execRnd (x : Reg) (nn : Byte) (s : State) : Result :=
  .next ((s.nextDraw.setV x (s.rndByte &&& nn)).advance 2)

end Sys2Proof.Machine
end

