-- ==== Sys2Proof/Machine/Step.lean ====
section
/-! DEFINITION. The step, and a word placed where the next step fetches it. -/

namespace Sys2Proof.Machine

/-- One fetch-decode-execute-timer cycle (40_step_cycle R80). -/
def step (s : State) : Host.Outcome State Fault Refusal := cycleWith exec s

/-- `s` with the instruction of a table row's bits stored at `pc` (bits above `nbits` zero). A `pc`
of 4095 or above has no place to fetch from; the step then faults as R81 says. -/
def State.withFetchWord (s : State) (nbits w : Nat) : State :=
  s.placeWord (BitVec.ofNat 16 (w % 2 ^ nbits))

end Sys2Proof.Machine
end

