-- ==== Sys2Proof/Machine/Driver.lean ====
section
/-! DEFINITION. The driver's side of the interface: what it may do between two steps, and what it
sees of a step (10_state R27, 60_exceptions R186, R190). -/

namespace Sys2Proof.Machine

/-- The driver writes the whole keypad between two steps (R21, R190). -/
def State.driveKeypad (s : State) (keys : Vector Bool 16) : State := { s with keypad := keys }

/-- The driver writes one keypad bit between two steps (R190). -/
def State.driveKey (s : State) (k : BitVec 4) (pressed : Bool) : State :=
  s.driveKeypad (s.keypad.set k.toNat pressed k.isLt)

/-- One invocation of the step as the driver sees it: the state afterwards, which is the state
before where the step faulted, and the fault if there was one (R89, R171, R184). -/
def State.invoke (s : State) : State × Option Fault :=
  match step s with
  | .next t => (t, none)
  | .fault f => (s, some f)
  | .refused _ => (s, none)

/-- A run under a driver's script: before each step the keypad is written, and a fault ends the run
(R184, R190). -/
def drivenRun : List (Vector Bool 16) → State → Result
  | [], s => .next s
  | keys :: script, s =>
    match step (s.driveKeypad keys) with
    | .next t => drivenRun script t
    | .fault f => .fault f
    | .refused r => .refused r

end Sys2Proof.Machine
end

