-- ==== Sys2Proof/WellFormed.lean ====
section
/-! DEFINITION. What is well-formed: an instruction word, an instruction, a program image. -/

namespace Sys2Proof

/-- A word is well-formed when it matches a row of the opcode map (30_encoding R63, R66). -/
def wellFormedWord (op : Word) : Bool := opcodeMap.any (·.accepts op)

/-- An instruction is well-formed when its word is. An `Instr` carries no other condition: each of
its operands has exactly the width of its field (R61), so no operand can be out of range. -/
def Instr.wellFormed (i : Instr) : Bool := wellFormedWord (encode i)

/-- A program image is well-formed when it fits from `PROG_BASE` to the end of memory
(70_reset_and_hazards R201). -/
def wellFormedImage (image : List Byte) : Bool := decide (image.length ≤ Config.progMax)

end Sys2Proof
end

