-- ==== Sys2Proof/Machine/Reset.lean ====
section
/-! DEFINITION. Reset with a font table and a program image (70_reset_and_hazards R200, R201; 10_state
R25, R26; 00_scope R5). -/

namespace Sys2Proof.Machine

/-- Why a reset fails. It is not a fault of a step: no state exists afterwards (R170, R201). -/
inductive ResetError where
  /-- The image is longer than 3584 bytes (R201). Safe: nothing can be claimed of such a launch. -/
  | romTooLarge
  deriving DecidableEq, Repr

/-- Memory after reset: the font table from 0x000, the image from 0x200, 0 elsewhere (R25). -/
def resetMemory (font : FontTable) (image : List Byte) : Memory :=
  (Memory.writeBytes [] Config.fontBase font.bytes).writeBytes Config.progBase image

/-- Reset of the machine whose font table is `font` (R5) with an image: everything but memory as
`State.reset` has it (R25). -/
def State.resetWith (font : FontTable) (image : List Byte) : Except ResetError State :=
  if wellFormedImage image then .ok { State.reset with mem := resetMemory font image }
  else .error .romTooLarge

end Sys2Proof.Machine
end

