-- ==== Sys2Proof/Safety.lean ====
section
/-! DEFINITION. The terms claims are stated in: the elements of the Machine State and who may write
them (10_state R10), the invariant of reachable states (R28), the preconditions of the instructions
(40_step_cycle R83), idle and final states (70_reset_and_hazards R210), safe runs. -/

namespace Sys2Proof.Machine

/-! ### Elements of the state (10_state R10) -/

/-- One element of the Machine State. -/
inductive Elem where
  | reg (x : Reg)
  | addrReg
  | pc
  | slot (k : BitVec 4)
  | sp
  | delayTimer
  | soundTimer
  | redraw
  | sound
  | key (k : BitVec 4)
  | pixel (j : Nat)
  | byte (a : Nat)
  /-- The model's own draw counter. -/
  | draws
  deriving DecidableEq, Repr

/-- The value an element holds. -/
def State.elem (s : State) : Elem → Nat
  | .reg x => (s.getV x).toNat
  | .addrReg => s.i.toNat
  | .pc => s.pc.toNat
  | .slot k => (s.getSlot k).toNat
  | .sp => s.sp.toNat
  | .delayTimer => s.dt.toNat
  | .soundTimer => s.st.toNat
  | .redraw => s.redrawPending.toNat
  | .sound => s.soundPending.toNat
  | .key k => (s.key k).toNat
  | .pixel j => (s.pixel j).toNat
  | .byte a => (s.mem.read a).toNat
  | .draws => s.draws

/-- `t` holds what `s` holds in every element outside `writes`. -/
def SameOutside (writes : Elem → Prop) (s t : State) : Prop :=
  ∀ e, ¬ writes e → t.elem e = s.elem e

/-- `t` holds what `s` holds in every element but those listed. -/
def SameExcept (es : List Elem) (s t : State) : Prop := SameOutside (fun e => e ∈ es) s t

/-! ### The invariant of reachable states (10_state R28) -/

/-- What every state reachable from reset satisfies: memory in canonical form, `stack[0] = 0`, and
every live stack slot holds the address, at most 4094, of a call. The ranges of R28 hold by the
types of the fields. -/
def ReachInv (s : State) : Prop :=
  s.mem.wf = true ∧ s.getSlot 0 = 0 ∧
    ∀ k : BitVec 4, 1 ≤ k.toNat → k.toNat ≤ s.sp.toNat → (s.getSlot k).toNat ≤ 4094

/-! ### What a step executes (40_step_cycle R81, R82) -/

/-- The opcode word at `pc` (20_memory R42). -/
def State.wordAtPc (s : State) : Word :=
  joinBytes (s.mem.read s.pc.toNat) (s.mem.read (s.pc.toNat + 1))

/-- The next step fetches a word that decodes to `i`. -/
def Executes (s : State) (i : Instr) : Prop := s.pc.toNat ≤ 4094 ∧ decode s.wordAtPc = some i

/-- A result with its next state changed by `g`. -/
def mapNext (g : State → State) : Result → Result
  | .next t => .next (g t)
  | .fault f => .fault f
  | .refused r => .refused r

/-! ### Preconditions (40_step_cycle R83) -/

/-- Every data byte from I on, `len` of them, exists (20_memory R44). -/
def DataFits (s : State) (len : Nat) : Prop := len = 0 ∨ s.i.toNat + (len - 1) ≤ 4095

/-- Bit c (from the left) of sprite row r is set (44_graphics R152). -/
def SpriteSet (s : State) (r c : Nat) : Prop :=
  (s.mem.read (s.i.toNat + r)).getLsbD (7 - c) = true

/-- The linear index of sprite row r, column c, drawn at `V[x]`, `V[y]` (44_graphics R150). -/
def drawIndex (s : State) (x y : Reg) (r c : Nat) : Nat :=
  (s.getV x).toNat + c + 64 * ((s.getV y).toNat + r)

/-- Every set bit of the sprite lies inside the framebuffer (44_graphics R152). -/
def SpriteFits (s : State) (x y : Reg) (n : Nibble) : Prop :=
  ∀ r c : Nat, r < n.toNat → c < 8 → SpriteSet s r c → drawIndex s x y r c ≤ 2047

/-- Some set bit of the sprite lies on pixel j. -/
def SpriteCovers (s : State) (x y : Reg) (n : Nibble) (j : Nat) : Prop :=
  ∃ r c : Nat, r < n.toNat ∧ c < 8 ∧ SpriteSet s r c ∧ j = drawIndex s x y r c

/-- j is the first index, in the scan order rows then columns, of a set bit that lies outside the
framebuffer (44_graphics R152, 60_exceptions R181). -/
def FirstOutside (s : State) (x y : Reg) (n : Nibble) (j : Nat) : Prop :=
  ∃ r c : Nat, r < n.toNat ∧ c < 8 ∧ SpriteSet s r c ∧ j = drawIndex s x y r c ∧ 2048 ≤ j ∧
    ∀ r' c' : Nat, c' < 8 → (r' < r ∨ r' = r ∧ c' < c) → SpriteSet s r' c' →
      drawIndex s x y r' c' ≤ 2047

/-- R83's table: when an instruction executes without a fault. -/
def Fits (s : State) : Instr → Prop
  | .ret => 1 ≤ s.sp.toNat
  | .call _ => s.sp.toNat ≤ 14
  | .drw x y n => DataFits s n.toNat ∧ SpriteFits s x y n
  | .skp x | .sknp x => (s.getV x).toNat ≤ 15
  | .ldBcd _ => DataFits s 3
  | .storeRegs x | .loadRegs x => DataFits s (x.toNat + 1)
  | _ => True

/-- R83's table: which fault an instruction raises when its precondition fails. -/
def FaultsWith (s : State) (f : Fault) : Instr → Prop
  | .ret => s.sp.toNat = 0 ∧ f = .stackUnderflow
  | .call _ => s.sp.toNat = 15 ∧ f = .stackOverflow
  | .drw x y n =>
    ¬ DataFits s n.toNat ∧ f = .outOfBounds .data (s.i.toNat + (n.toNat - 1)) ∨
      DataFits s n.toNat ∧ ∃ j, FirstOutside s x y n j ∧ f = .outOfBounds .framebuffer j
  | .skp x | .sknp x => 15 < (s.getV x).toNat ∧ f = .outOfBounds .keypad (s.getV x).toNat
  | .ldBcd _ => 4095 < s.i.toNat + 2 ∧ f = .outOfBounds .data (s.i.toNat + 2)
  | .storeRegs x | .loadRegs x =>
    4095 < s.i.toNat + x.toNat ∧ f = .outOfBounds .data (s.i.toNat + x.toNat)
  | _ => False

/-! ### Who writes what (10_state R10, the column "written by"; R12, R14 to R22) -/

/-- The general registers an instruction may write: its destination, and VF where R12 lists it. -/
def WritesReg : Instr → Reg → Prop
  | .ldImm x _, r | .addImm x _, r | .rnd x _, r | .ldReg x _, r | .orReg x _, r | .andReg x _, r
  | .xorReg x _, r | .ldFromDt x, r | .ldKey x, r => r = x
  | .addReg x _, r | .subReg x _, r | .shr x _, r | .subn x _, r | .shl x _, r => r = x ∨ r = VF
  | .drw _ _ _, r => r = VF
  | .loadRegs x, r => r.toNat ≤ x.toNat
  | _, _ => False

/-- The bytes of memory an instruction may write, from the address its meaning computes (20_memory
R43, R44). -/
def WritesByte (s : State) : Instr → Nat → Prop
  | .ldBcd _, a => s.dataAddr 0 ≤ a ∧ a ≤ s.dataAddr 2
  | .storeRegs x, a => s.dataAddr 0 ≤ a ∧ a ≤ s.dataAddr x.toNat
  | _, _ => False

/-- The pixels an instruction may write. -/
def WritesPixel (s : State) : Instr → Nat → Prop
  | .cls, _ => True
  | .drw x y n, j => SpriteCovers s x y n j
  | _, _ => False

/-- An instruction sets `redraw_pending` (10_state R19). -/
def setsRedraw : Instr → Bool
  | .cls | .drw _ _ _ => true
  | _ => false

/-- The elements an instruction may write in its execute phase. -/
def MayWrite (s : State) (i : Instr) : Elem → Prop
  | .reg r => WritesReg i r
  | .addrReg => (∃ nnn, i = .ldI nnn) ∨ (∃ x, i = .addI x) ∨ ∃ x, i = .ldFont x
  | .pc => True
  | .slot k => (∃ nnn, i = .call nnn) ∧ k.toNat = s.sp.toNat + 1
  | .sp => i = .ret ∨ ∃ nnn, i = .call nnn
  | .delayTimer => ∃ x, i = .ldDt x
  | .soundTimer => ∃ x, i = .ldSt x
  | .redraw => setsRedraw i = true
  | .sound => False
  | .key _ => False
  | .pixel j => WritesPixel s i j
  | .byte a => WritesByte s i a
  | .draws => (∃ x nn, i = .rnd x nn) ∨ ∃ x, i = .ldKey x

/-! ### The pc policy (40_step_cycle R86) -/

/-- The `pc` an instruction leaves, by R86's table. -/
def PcPolicy (s : State) (p : Word) : Instr → Prop
  | .jp nnn | .call nnn => p.toNat = nnn.toNat
  | .jpV0 nnn => p.toNat = nnn.toNat + (s.getV 0).toNat
  | .ret => p = s.getSlot s.sp + 2
  | .seImm x nn => p = s.pc + (if s.getV x = nn then 4 else 2)
  | .sneImm x nn => p = s.pc + (if s.getV x ≠ nn then 4 else 2)
  | .seReg x y => p = s.pc + (if s.getV x = s.getV y then 4 else 2)
  | .sneReg x y => p = s.pc + (if s.getV x ≠ s.getV y then 4 else 2)
  | .skp x => p = s.pc + (if s.key ((s.getV x).setWidth 4) = true then 4 else 2)
  | .sknp x => p = s.pc + (if s.key ((s.getV x).setWidth 4) = false then 4 else 2)
  | .ldKey _ => ((∀ k, s.key k = false) → p = s.pc) ∧ ((∃ k, s.key k = true) → p = s.pc + 2)
  | _ => p = s.pc + 2

/-! ### The end of a run (70_reset_and_hazards R210) -/

/-- A state is idle when the word at `pc` is a jump to `pc` itself (R210). -/
def Idle (s : State) : Prop := ∃ nnn : Addr12, Executes s (.jp nnn) ∧ nnn.toNat = s.pc.toNat

/-- A final state: idle, both timers stopped, both transient flags 0 (R210; D20). -/
def Final (s : State) : Prop :=
  Idle s ∧ s.dt = 0 ∧ s.st = 0 ∧ s.redrawPending = false ∧ s.soundPending = false

/-! ### Safe runs -/

/-- `k` steps from `s` end in `t`, none of them stopping. -/
def Runs : Nat → State → State → Prop
  | 0, s, t => s = t
  | k + 1, s, t => ∃ u, step s = .next u ∧ Runs k u t

/-- A run of `k` steps is safe when no step of it faults. -/
def SafeFor (k : Nat) (s : State) : Prop := ∃ t, Runs k s t

end Sys2Proof.Machine
end

