-- ==== Sys2Proof/Certificates/Slice0/Obligations.lean ====
section
/-! DEFINITION. The statements for the provers. Each docstring names the rule or section of spec/ it
formalises. -/

open Sys2Proof Sys2Proof.Machine

/-! ### Encoding (30_encoding) -/

/-- Words of several families, as the spec's own vectors write them, decode to their instruction
(30_encoding R64, 95_test_vectors). -/
def Obligations.SpecWordsDecode : Prop :=
  decode 0x00E0 = some .cls ∧ decode 0x2ABC = some (.call 0xABC) ∧
    decode 0x3A42 = some (.seImm 0xA 0x42) ∧ decode 0x6A2B = some (.ldImm 0xA 0x2B) ∧
    decode 0x8AB6 = some (.shr 0xA 0xB) ∧ decode 0xA2F0 = some (.ldI 0x2F0) ∧
    decode 0xD125 = some (.drw 0x1 0x2 0x5) ∧ decode 0xF20A = some (.ldKey 0x2) ∧
    decode 0x5AB1 = none ∧ decode 0x0000 = none

/-- Every instruction, with every operand, is read back from its word and from its two bytes
(30_encoding R60, R62, R64). -/
def Obligations.DecodeOfEncode : Prop :=
  ∀ (i : Instr) (rest : List Byte),
    decode (encode i) = some i ∧ decodeBytes (encodeBytes i ++ rest) = .ok (i, rest)

/-- A decoded word is the word of its instruction: no bit of it is dropped, the ignored `y` of the
shifts included (30_encoding R61, R65). -/
def Obligations.EncodeOfDecode : Prop :=
  ∀ (op : Word) (i : Instr), decode op = some i → encode i = op

/-- The decoder is the opcode map: a word matches exactly the row of the instruction it decodes to,
and no row if it decodes to none (30_encoding section 3; strictness is the spec's decision D3). -/
def Obligations.DecoderIsTheOpcodeMap : Prop :=
  ∀ op : Word, matchingRows op =
    match decode op with
    | some i => [rowOf i]
    | none => []

/-- The complete set of unrecognized words, by category (30_encoding section 4; D3, conflict C1). -/
def Obligations.UnrecognizedWords : Prop :=
  ∀ op : Word, decode op = none ↔
    (fieldCat op = 0x0 ∧ op ≠ 0x00E0 ∧ op ≠ 0x00EE) ∨
    (fieldCat op = 0x5 ∧ fieldN op ≠ 0) ∨
    (fieldCat op = 0x8 ∧ fieldN op ∈ ([0x8, 0x9, 0xA, 0xB, 0xC, 0xD, 0xF] : List Nibble)) ∨
    (fieldCat op = 0x9 ∧ fieldN op ≠ 0) ∨
    (fieldCat op = 0xE ∧ fieldNn op ∉ ([0x9E, 0xA1] : List Byte)) ∨
    (fieldCat op = 0xF ∧
      fieldNn op ∉ ([0x07, 0x0A, 0x15, 0x18, 0x1E, 0x29, 0x33, 0x55, 0x65] : List Byte))

/-! ### The step and its faults (40_step_cycle, 60_exceptions) -/

/-- When the word at `pc` decodes to `i`, the step is `exec i` on the state with both transient
flags cleared, followed by the timer tick (40_step_cycle section 1; the phase order of the check and
the flag clear is D1, assumption 5). -/
def Obligations.StepRunsDecodedInstruction : Prop :=
  ∀ (s : State) (i : Instr), Executes s i →
    step s =
      match exec i s.clearFlags with
      | .next t => .next t.tick
      | .fault f => .fault f
      | .refused r => .refused r

/-- Which fault a step raises, first in the order fetch, unknown opcode, precondition
(60_exceptions sections 1 and 3; the spec's decisions D1, D2, D24). -/
def Obligations.StepFaultsInOrder : Prop :=
  ∀ (s : State) (f : Fault), step s = .fault f ↔
    (4095 ≤ s.pc.toNat ∧ f = .outOfBounds .fetch s.pc.toNat) ∨
    (s.pc.toNat ≤ 4094 ∧ decode s.wordAtPc = none ∧ f = .unknownOpcode s.wordAtPc) ∨
    (∃ i, Executes s i ∧ exec i s = .fault f)

/-- A faulting step leaves the state as it was, and the same fault recurs when the driver invokes the
step again, whatever it writes to the keypad first, whatever the draws hold, and whatever it does in
the steps after (60_exceptions sections 1 and 4; the spec's decision D1, assumption 10; the draw counter
is the model's own, assumption 4). -/
def Obligations.FaultingStepChangesNothing : Prop :=
  ∀ (s : State) (f : Fault), step s = .fault f →
    s.invoke = (s, some f) ∧
    ∀ (n : Nat) (keys : Vector Bool 16) (script : List (Vector Bool 16)),
      step ({ s with draws := n }.driveKeypad keys) = .fault f ∧
      drivenRun (keys :: script) { s with draws := n } = .fault f

/-- Every instruction completes exactly when R83's precondition holds (40_step_cycle section 4; the
spec's decisions D5, D6, D7, D8, D10). -/
def Obligations.CompletesExactlyWhenItFits : Prop :=
  ∀ (i : Instr) (s : State), (∃ t, exec i s = .next t) ↔ Fits s i

/-- Every instruction faults exactly as R83's table says, with that fault and its value, and none is
refused (40_step_cycle section 4, 44_graphics Dxyn; D5, D6, D7, D8, D10, D24). -/
def Obligations.FaultsExactlyAsTabled : Prop :=
  ∀ (i : Instr) (s : State),
    (∀ f, exec i s = .fault f ↔ FaultsWith s f i) ∧ ∀ r, exec i s ≠ .refused r

/-- Whether and how an instruction faults does not depend on the transient flags, so clearing them
before the check is not visible (40_step_cycle section 5; D1, assumption 5). -/
def Obligations.FaultsIgnoreTransientFlags : Prop :=
  ∀ (i : Instr) (s : State) (f : Fault), exec i s.clearFlags = .fault f ↔ exec i s = .fault f

/-- DT after a step: the value the instruction left, counted down unless 0 (natural subtraction);
Fx07 reads it before the tick (10_state R17). -/
def Obligations.DelayTimerAfterStep : Prop :=
  (∀ (s t : State) (i : Instr), Executes s i → step s = .next t →
    t.dt.toNat =
        (match i with
          | .ldDt x => (s.getV x).toNat
          | _ => s.dt.toNat) - 1 ∧
      ∀ x, i = .ldFromDt x → t.getV x = s.dt) ∧
  State.reset.dt = 0

/-- The transient flags: what a step leaves in them, that the core never reads them, and their reset
value (10_state section 3). That a faulting step keeps them rests on the spec's decision D1
(assumption 10). -/
def Obligations.TransientFlagsAfterStep : Prop :=
  (∀ (s t : State) (i : Instr), Executes s i → step s = .next t →
    let st := match i with
      | .ldSt x => (s.getV x).toNat
      | _ => s.st.toNat
    t.redrawPending = setsRedraw i ∧ t.soundPending = decide (0 < st) ∧ t.st.toNat = st - 1) ∧
  (∀ (s : State) (a b : Bool), step ((s.setRedraw a).setSound b) = step s) ∧
  (∀ (s : State) (f : Fault), step s = .fault f →
    s.invoke.1.redrawPending = s.redrawPending ∧ s.invoke.1.soundPending = s.soundPending) ∧
  State.reset.redrawPending = false ∧ State.reset.soundPending = false

/-! ### Control flow (41_control_flow) -/

/-- 1nnn; the jump to itself leaves all but the flag clear and the timer tick (41_control_flow R102). -/
def Obligations.JumpSetsPc : Prop :=
  ∀ (nnn : Addr12) (s : State), decode (wordNnn 0x1 nnn) = some (.jp nnn) ∧
    ∃ t, exec (.jp nnn) s = .next t ∧ t.pc.toNat = nnn.toNat ∧ SameExcept [.pc] s t ∧
      (nnn = 0xFFF → step t.tick = .fault (.outOfBounds .fetch 0xFFF)) ∧
      (Executes s (.jp nnn) → nnn.toNat = s.pc.toNat → step s = .next s.clearFlags.tick)

/-- 2nnn, and its overflow (41_control_flow, 2nnn; the fault is the spec's decision D5). -/
def Obligations.CallPushesItsOwnPc : Prop :=
  ∀ (nnn : Addr12) (s : State),
    (s.sp.toNat ≤ 14 → ∃ t, exec (.call nnn) s = .next t ∧ t.sp.toNat = s.sp.toNat + 1 ∧
      t.getSlot t.sp = s.pc ∧ t.pc.toNat = nnn.toNat ∧ SameExcept [.pc, .sp, .slot t.sp] s t) ∧
    (s.sp.toNat = 15 → exec (.call nnn) s = .fault .stackOverflow)

/-- 00EE, and its underflow (41_control_flow, 00EE; the fault is the spec's decision D6). -/
def Obligations.ReturnPopsAndAddsTwo : Prop :=
  ∀ s : State,
    (1 ≤ s.sp.toNat → ∃ t, exec .ret s = .next t ∧ t.pc = s.getSlot s.sp + 2 ∧
      t.sp.toNat = s.sp.toNat - 1 ∧ SameExcept [.pc, .sp] s t) ∧
    (s.sp.toNat = 0 → exec .ret s = .fault .stackUnderflow)

/-- A call and its return: at once, or later at the same depth with the slot unchanged; and only a
call writes the stack, in the slot above its own sp (41_control_flow R109). -/
def Obligations.CallThenReturn : Prop :=
  (∀ (nnn : Addr12) (s t : State), exec (.call nnn) s = .next t →
    (∃ w, exec .ret t = .next w ∧ w.pc = s.pc + 2 ∧ w.sp = s.sp) ∧
    ∀ u : State, u.sp = t.sp → u.getSlot u.sp = s.pc →
      ∃ w, exec .ret u = .next w ∧ w.pc = s.pc + 2 ∧ w.sp = s.sp) ∧
  (∀ (i : Instr) (s t : State) (k : BitVec 4), exec i s = .next t → t.getSlot k ≠ s.getSlot k →
    ∃ nnn, i = .call nnn ∧ k.toNat = s.sp.toNat + 1)

/-- 3xnn and 4xnn (41_control_flow R104, R105). -/
def Obligations.SkipOnImmediate : Prop :=
  ∀ (x : Reg) (nn : Byte) (s : State),
    decode (wordXnn 0x3 x nn) = some (.seImm x nn) ∧
    decode (wordXnn 0x4 x nn) = some (.sneImm x nn) ∧
    (∃ t, exec (.seImm x nn) s = .next t ∧
      t.pc = (if s.getV x = nn then s.pc + 4 else s.pc + 2) ∧ SameExcept [.pc] s t) ∧
    ∃ t, exec (.sneImm x nn) s = .next t ∧
      t.pc = (if s.getV x ≠ nn then s.pc + 4 else s.pc + 2) ∧ SameExcept [.pc] s t

/-- 5xy0 and 9xy0; any other low nibble is unrecognized (41_control_flow R106, R107). -/
def Obligations.SkipOnRegister : Prop :=
  ∀ (x y : Reg) (s : State),
    (∀ n : Nibble, decode (wordXyn 0x5 x y n) = if n = 0 then some (.seReg x y) else none) ∧
    (∀ n : Nibble, decode (wordXyn 0x9 x y n) = if n = 0 then some (.sneReg x y) else none) ∧
    (∃ t, exec (.seReg x y) s = .next t ∧
      t.pc = (if s.getV x = s.getV y then s.pc + 4 else s.pc + 2) ∧ SameExcept [.pc] s t) ∧
    ∃ t, exec (.sneReg x y) s = .next t ∧
      t.pc = (if s.getV x ≠ s.getV y then s.pc + 4 else s.pc + 2) ∧ SameExcept [.pc] s t

/-- Bnnn: an exact sum, not reduced to 12 bits (41_control_flow R108). -/
def Obligations.JumpWithOffset : Prop :=
  ∀ (nnn : Addr12) (s : State), decode (wordNnn 0xB nnn) = some (.jpV0 nnn) ∧
    ∃ t, exec (.jpV0 nnn) s = .next t ∧ t.pc.toNat = nnn.toNat + (s.getV 0).toNat ∧
      SameExcept [.pc] s t ∧
      (4095 ≤ t.pc.toNat → step t.tick = .fault (.outOfBounds .fetch t.pc.toNat))

/-! ### Load, arithmetic, logic (42_load_arith_logic) -/

/-- 6xnn and 8xy0 (42_load_arith_logic R120, R122). -/
def Obligations.LoadAndCopyRegister : Prop :=
  ∀ (x y : Reg) (nn : Byte) (s : State),
    decode (wordXnn 0x6 x nn) = some (.ldImm x nn) ∧
    decode (wordXyn 0x8 x y 0x0) = some (.ldReg x y) ∧
    (∃ t, exec (.ldImm x nn) s = .next t ∧ t.getV x = nn ∧ t.pc = s.pc + 2 ∧
      SameExcept [.pc, .reg x] s t) ∧
    ∃ t, exec (.ldReg x y) s = .next t ∧ t.getV x = s.getV y ∧ t.pc = s.pc + 2 ∧
      SameExcept [.pc, .reg x] s t

/-- 7xnn: modulo 256, no flag (42_load_arith_logic R121). -/
def Obligations.AddImmediateWraps : Prop :=
  ∀ (x : Reg) (nn : Byte) (s : State), decode (wordXnn 0x7 x nn) = some (.addImm x nn) ∧
    ∃ t, exec (.addImm x nn) s = .next t ∧
      (t.getV x).toNat = ((s.getV x).toNat + nn.toNat) % 256 ∧ t.pc = s.pc + 2 ∧
      SameExcept [.pc, .reg x] s t

/-- 8xy1, 8xy2, 8xy3: bit by bit, no flag (42_load_arith_logic R123, R124, R125). -/
def Obligations.BitwiseOperations : Prop :=
  ∀ (x y : Reg) (s : State),
    decode (wordXyn 0x8 x y 0x1) = some (.orReg x y) ∧
    decode (wordXyn 0x8 x y 0x2) = some (.andReg x y) ∧
    decode (wordXyn 0x8 x y 0x3) = some (.xorReg x y) ∧
    (∃ t, exec (.orReg x y) s = .next t ∧ t.pc = s.pc + 2 ∧ SameExcept [.pc, .reg x] s t ∧
      ∀ k, (t.getV x).getLsbD k = ((s.getV x).getLsbD k || (s.getV y).getLsbD k)) ∧
    (∃ t, exec (.andReg x y) s = .next t ∧ t.pc = s.pc + 2 ∧ SameExcept [.pc, .reg x] s t ∧
      ∀ k, (t.getV x).getLsbD k = ((s.getV x).getLsbD k && (s.getV y).getLsbD k)) ∧
    ∃ t, exec (.xorReg x y) s = .next t ∧ t.pc = s.pc + 2 ∧ SameExcept [.pc, .reg x] s t ∧
      ∀ k, (t.getV x).getLsbD k = ((s.getV x).getLsbD k ^^ (s.getV y).getLsbD k)

/-- 8xy4 in all its cases (42_load_arith_logic, 8xy4). The cases with VF as an operand rest on the
sequential reading, the spec's decision D15 (assumption 8). -/
def Obligations.AddRegistersWithCarry : Prop :=
  ∀ (x y : Reg) (s : State),
    let a := (s.getV x).toNat
    let b := (s.getV y).toNat
    let c := if a + b > 255 then 1 else 0
    ∃ t, exec (.addReg x y) s = .next t ∧ t.pc = s.pc + 2 ∧
      SameExcept [.pc, .reg x, .reg VF] s t ∧
      (x ≠ VF → y ≠ VF → (t.getV x).toNat = (a + b) % 256 ∧ (t.getV VF).toNat = c) ∧
      (x = VF → y ≠ VF → (t.getV VF).toNat = (c + b) % 256) ∧
      (x ≠ VF → y = VF → (t.getV x).toNat = (a + c) % 256 ∧ (t.getV VF).toNat = c) ∧
      (x = VF → y = VF → (t.getV VF).toNat = 2 * c)

/-- 8xy5 and 8xy7 in all their cases: `x - y` and `y - x` modulo 256 with a strict no-borrow flag
(42_load_arith_logic, 8xy5 and 8xy7). The cases with VF as an operand rest on D15 (assumption 8). -/
def Obligations.SubtractRegistersBothWays : Prop :=
  ∀ (x y : Reg) (s : State),
    let a := (s.getV x).toNat
    let b := (s.getV y).toNat
    let f := if a > b then 1 else 0
    let g := if b > a then 1 else 0
    (∃ t, exec (.subReg x y) s = .next t ∧ t.pc = s.pc + 2 ∧
      SameExcept [.pc, .reg x, .reg VF] s t ∧
      (x ≠ VF → y ≠ VF → (t.getV x).toNat = (a + 256 - b) % 256 ∧ (t.getV VF).toNat = f) ∧
      (x = VF → y ≠ VF → (t.getV VF).toNat = (f + 256 - b) % 256) ∧
      (x ≠ VF → y = VF → (t.getV x).toNat = (a + 256 - f) % 256 ∧ (t.getV VF).toNat = f) ∧
      (x = VF → y = VF → (t.getV VF).toNat = 0)) ∧
    ∃ t, exec (.subn x y) s = .next t ∧ t.pc = s.pc + 2 ∧
      SameExcept [.pc, .reg x, .reg VF] s t ∧
      (x ≠ VF → y ≠ VF → (t.getV x).toNat = (b + 256 - a) % 256 ∧ (t.getV VF).toNat = g) ∧
      (x = VF → y ≠ VF → (t.getV VF).toNat = (b + 256 - g) % 256) ∧
      (x ≠ VF → y = VF → (t.getV x).toNat = (g + 256 - a) % 256 ∧ (t.getV VF).toNat = g) ∧
      (x = VF → y = VF → (t.getV VF).toNat = 0)

/-- 8xy6 and 8xyE in all their cases, whatever `y` is (42_load_arith_logic, 8xy6 and 8xyE). The case
`x = 15` rests on D15 (assumption 8). -/
def Obligations.ShiftsByOne : Prop :=
  ∀ (x y : Reg) (s : State),
    let a := (s.getV x).toNat
    (∃ t, exec (.shr x y) s = .next t ∧ t.pc = s.pc + 2 ∧ SameExcept [.pc, .reg x, .reg VF] s t ∧
      (x ≠ VF → (t.getV x).toNat = a / 2 ∧ (t.getV VF).toNat = a % 2) ∧
      (x = VF → (t.getV VF).toNat = 0)) ∧
    ∃ t, exec (.shl x y) s = .next t ∧ t.pc = s.pc + 2 ∧ SameExcept [.pc, .reg x, .reg VF] s t ∧
      (x ≠ VF → (t.getV x).toNat = 2 * a % 256 ∧ (t.getV VF).toNat = a / 128) ∧
      (x = VF → (t.getV VF).toNat = 2 * (a / 128))

/-- Cxnn: the next draw, masked, so a bit whose mask bit is 0 is 0 and mask 0 gives 0 whatever the
draw (42_load_arith_logic, Cxnn). That the draw is a free value indexed by the model's own counter is
assumption 2 and 4. -/
def Obligations.RandomByteIsMasked : Prop :=
  ∀ (x : Reg) (nn : Byte) (s : State), ∃ t, exec (.rnd x nn) s = .next t ∧
    t.getV x = Config.rnd s.draws &&& nn ∧ t.draws = s.draws + 1 ∧ t.pc = s.pc + 2 ∧
    SameExcept [.pc, .reg x, .draws] s t ∧
    (∀ k, nn.getLsbD k = false → (t.getV x).getLsbD k = false) ∧ (nn = 0 → t.getV x = 0)

/-! ### Address register and memory (43_index_memory) -/

/-- Annn, Fx1E and Fx29 (43_index_memory R140, R141, R142). -/
def Obligations.AddressRegisterLoads : Prop :=
  ∀ (x : Reg) (nnn : Addr12) (s : State),
    decode (wordNnn 0xA nnn) = some (.ldI nnn) ∧ decode (wordXnn 0xF x 0x1E) = some (.addI x) ∧
    decode (wordXnn 0xF x 0x29) = some (.ldFont x) ∧
    (∃ t, exec (.ldI nnn) s = .next t ∧ t.i.toNat = nnn.toNat ∧ t.pc = s.pc + 2 ∧
      SameExcept [.pc, .addrReg] s t) ∧
    (∃ t, exec (.addI x) s = .next t ∧ t.i.toNat = (s.i.toNat + (s.getV x).toNat) % 65536 ∧
      t.pc = s.pc + 2 ∧ SameExcept [.pc, .addrReg] s t) ∧
    ∃ t, exec (.ldFont x) s = .next t ∧ t.i.toNat = (s.getV x).toNat * 5 ∧ t.pc = s.pc + 2 ∧
      SameExcept [.pc, .addrReg] s t

/-- Fx33 where its three bytes exist, and its fault where they do not (43_index_memory, Fx33; the
fault is the spec's decision D7). -/
def Obligations.StoreDecimalDigits : Prop :=
  ∀ (x : Reg) (s : State),
    (s.dataAddr 2 ≤ 4095 → ∃ t, exec (.ldBcd x) s = .next t ∧ t.pc = s.pc + 2 ∧
      (t.mem.read (s.dataAddr 0)).toNat = (s.getV x).toNat / 100 ∧
      (t.mem.read (s.dataAddr 1)).toNat = (s.getV x).toNat / 10 % 10 ∧
      (t.mem.read (s.dataAddr 2)).toNat = (s.getV x).toNat % 10 ∧
      SameOutside (fun e => e = .pc ∨ ∃ a, e = .byte a ∧ s.dataAddr 0 ≤ a ∧ a ≤ s.dataAddr 2) s t) ∧
    (4095 < s.dataAddr 2 → exec (.ldBcd x) s = .fault (.outOfBounds .data (s.dataAddr 2)))

/-- Fx55 where its bytes exist, and its fault where they do not (43_index_memory, Fx55; the fault is
the spec's decision D7). -/
def Obligations.StoreRegistersThroughX : Prop :=
  ∀ (x : Reg) (s : State),
    (s.dataAddr x.toNat ≤ 4095 → ∃ t, exec (.storeRegs x) s = .next t ∧ t.pc = s.pc + 2 ∧
      (∀ r : Reg, r.toNat ≤ x.toNat → t.mem.read (s.dataAddr r.toNat) = s.getV r) ∧
      SameOutside
        (fun e => e = .pc ∨ ∃ a, e = .byte a ∧ s.dataAddr 0 ≤ a ∧ a ≤ s.dataAddr x.toNat) s t) ∧
    (4095 < s.dataAddr x.toNat →
      exec (.storeRegs x) s = .fault (.outOfBounds .data (s.dataAddr x.toNat)))

/-- Fx65 where its bytes exist, and its fault where they do not (43_index_memory, Fx65; the fault is
the spec's decision D7). -/
def Obligations.LoadRegistersThroughX : Prop :=
  ∀ (x : Reg) (s : State),
    (s.dataAddr x.toNat ≤ 4095 → ∃ t, exec (.loadRegs x) s = .next t ∧ t.pc = s.pc + 2 ∧
      (∀ r : Reg, r.toNat ≤ x.toNat → t.getV r = s.mem.read (s.dataAddr r.toNat)) ∧
      SameOutside (fun e => e = .pc ∨ ∃ r : Reg, e = .reg r ∧ r.toNat ≤ x.toNat) s t) ∧
    (4095 < s.dataAddr x.toNat →
      exec (.loadRegs x) s = .fault (.outOfBounds .data (s.dataAddr x.toNat)))

/-- Fx55 then Fx65 with the same x and I: the load completes, and of the state before the pair only
`pc` and the stored bytes have changed, so every register and I hold what they held
(43_index_memory, Fx65, corner cases; 95_test_vectors S5). -/
def Obligations.StoreThenLoadRoundTrip : Prop :=
  ∀ (x : Reg) (s t : State), exec (.storeRegs x) s = .next t →
    ∃ u, exec (.loadRegs x) t = .next u ∧ u.pc = s.pc + 4 ∧ (∀ r, u.getV r = s.getV r) ∧ u.i = s.i ∧
      (∀ r : Reg, r.toNat ≤ x.toNat → u.mem.read (s.dataAddr r.toNat) = s.getV r) ∧
      SameOutside
        (fun e => e = .pc ∨ ∃ a, e = .byte a ∧ s.dataAddr 0 ≤ a ∧ a ≤ s.dataAddr x.toNat) s u

/-- A write to an existing byte changes that byte and no other, and only Fx33 and Fx55 write memory
(20_memory R43). -/
def Obligations.OnlyStoresWriteMemory : Prop :=
  (∀ (m : Memory) (a b : Nat) (w : Byte), a ≤ 4095 →
    (m.write a w).read b = if b = a then w else m.read b) ∧
  (∀ (i : Instr) (s t : State) (a : Nat), exec i s = .next t → t.mem.read a ≠ s.mem.read a →
    ∃ x, i = .ldBcd x ∨ i = .storeRegs x)

/-- A word Fx55 stores where the next instruction is fetched is what the next fetch gives (20_memory
section 7, 70_reset_and_hazards section 3). -/
def Obligations.StoredCodeIsFetchedNext : Prop :=
  ∀ (x : Reg) (s t : State), Executes s (.storeRegs x) → 1 ≤ x.toNat → s.i = s.pc + 2 →
    step s = .next t → t.fetch = .ok (joinBytes (s.getV 0) (s.getV 1))

/-! ### Graphics (44_graphics) -/

/-- 00E0 (44_graphics R151). -/
def Obligations.ClearScreen : Prop :=
  decode 0x00E0 = some .cls ∧
  ∀ s : State, ∃ t, exec .cls s = .next t ∧ (∀ j, t.pixel j = false) ∧ t.redrawPending = true ∧
    t.pc = s.pc + 2 ∧ SameOutside (fun e => e = .pc ∨ e = .redraw ∨ ∃ j, e = .pixel j) s t

/-- Dxyn where its bytes and pixels exist: the covered pixels toggle, no other; VF is the collision
flag; the coordinates are those before VF is cleared (44_graphics, Dxyn; the spec's decisions D7, D8,
D9, assumption 9). -/
def Obligations.DrawSprite : Prop :=
  ∀ (x y : Reg) (n : Nibble) (s : State), DataFits s n.toNat → SpriteFits s x y n →
    ∃ t, exec (.drw x y n) s = .next t ∧ t.redrawPending = true ∧ t.pc = s.pc + 2 ∧
      (∀ j, SpriteCovers s x y n j → t.pixel j = !s.pixel j) ∧
      (∀ j, ¬ SpriteCovers s x y n j → t.pixel j = s.pixel j) ∧
      ((∃ j, SpriteCovers s x y n j ∧ s.pixel j = true) → t.getV VF = 1) ∧
      ((∀ j, SpriteCovers s x y n j → s.pixel j = false) → t.getV VF = 0) ∧
      SameOutside
        (fun e => e = .pc ∨ e = .redraw ∨ e = .reg VF ∨ ∃ j, e = .pixel j ∧ SpriteCovers s x y n j)
        s t

/-- No pixel is toggled twice by one Dxyn (44_graphics, properties of Dxyn, which the spec derives). -/
def Obligations.SpriteIndicesDistinct : Prop :=
  ∀ (s : State) (vx vy rows : Nat), (s.spritePixels vx vy rows).Nodup

/-- Drawing twice with the same coordinates restores the framebuffer; on a clear framebuffer the
second draw reports a collision exactly when the sprite has a set bit (44_graphics, properties of
Dxyn, which the spec derives; conflict C2). -/
def Obligations.DrawTwiceRestores : Prop :=
  ∀ (x y : Reg) (n : Nibble) (s t : State), exec (.drw x y n) s = .next t →
    t.getV x = s.getV x → t.getV y = s.getV y →
    ∃ u, exec (.drw x y n) t = .next u ∧ (∀ j, u.pixel j = s.pixel j) ∧
      ((∀ j, s.pixel j = false) →
        t.getV VF = 0 ∧ (u.getV VF = 1 ↔ ∃ j, SpriteCovers s x y n j))

/-! ### Keypad and timers (45_keypad_timers) -/

/-- Ex9E and ExA1 for a key that exists, and their fault for one that does not (45_keypad_timers,
Ex9E and ExA1; the fault is the spec's decision D10). -/
def Obligations.SkipOnKey : Prop :=
  ∀ (x : Reg) (s : State),
    (∀ k : BitVec 4, (s.getV x).toNat = k.toNat →
      (∃ t, exec (.skp x) s = .next t ∧
        t.pc = (if s.key k = true then s.pc + 4 else s.pc + 2) ∧ SameExcept [.pc] s t) ∧
      ∃ t, exec (.sknp x) s = .next t ∧
        t.pc = (if s.key k = false then s.pc + 4 else s.pc + 2) ∧ SameExcept [.pc] s t) ∧
    (15 < (s.getV x).toNat →
      exec (.skp x) s = .fault (.outOfBounds .keypad (s.getV x).toNat) ∧
      exec (.sknp x) s = .fault (.outOfBounds .keypad (s.getV x).toNat))

/-- Fx07, Fx15 and Fx18, in the execute phase and through the tick of their step
(45_keypad_timers R162, R164, R165). -/
def Obligations.TimerTransfers : Prop :=
  ∀ (x : Reg) (s : State),
    decode (wordXnn 0xF x 0x07) = some (.ldFromDt x) ∧
    decode (wordXnn 0xF x 0x15) = some (.ldDt x) ∧ decode (wordXnn 0xF x 0x18) = some (.ldSt x) ∧
    (∃ t, exec (.ldFromDt x) s = .next t ∧ t.getV x = s.dt ∧ t.pc = s.pc + 2 ∧
      SameExcept [.pc, .reg x] s t) ∧
    (∃ t, exec (.ldDt x) s = .next t ∧ t.dt = s.getV x ∧ t.pc = s.pc + 2 ∧
      SameExcept [.pc, .delayTimer] s t) ∧
    (∃ t, exec (.ldSt x) s = .next t ∧ t.st = s.getV x ∧ t.pc = s.pc + 2 ∧
      SameExcept [.pc, .soundTimer] s t) ∧
    (Executes s (.ldFromDt x) → ∃ t, step s = .next t ∧ t.getV x = s.dt ∧
      t.dt.toNat = s.dt.toNat - 1) ∧
    (Executes s (.ldDt x) → ∃ t, step s = .next t ∧ t.dt.toNat = (s.getV x).toNat - 1) ∧
    (Executes s (.ldSt x) → ∃ t, step s = .next t ∧ t.st.toNat = (s.getV x).toNat - 1 ∧
      t.soundPending = decide (0 < (s.getV x).toNat))

/-- Fx0A: with no key pressed it changes nothing and `pc` stays; else some pressed key is reported
and a draw is consumed only if there is a choice (45_keypad_timers, Fx0A; the draw is the spec's
decision D11, assumptions 3 and 4). -/
def Obligations.WaitForKey : Prop :=
  ∀ (x : Reg) (s : State),
    ((∀ k, s.key k = false) → exec (.ldKey x) s = .next s) ∧
    ((∃ k, s.key k = true) →
      ∃ t k, exec (.ldKey x) s = .next t ∧ s.key k = true ∧ (t.getV x).toNat = k.toNat ∧
        t.pc = s.pc + 2 ∧ SameExcept [.pc, .reg x, .draws] s t ∧
        ((∀ j j', s.key j = true → s.key j' = true → j = j') → t.draws = s.draws))

/-- A Fx0A with no key pressed repeats for as long as the driver presses none: any number of steps,
`pc` fixed, the timers running down to 0 (70_reset_and_hazards section 3, 40_step_cycle section 7). -/
def Obligations.KeyWaitRepeats : Prop :=
  ∀ (x : Reg) (s : State), Executes s (.ldKey x) → (∀ k, s.key k = false) →
    ∀ n, ∃ t, Runs n s t ∧ t.dt.toNat = s.dt.toNat - n ∧ t.st.toNat = s.st.toNat - n ∧
      SameExcept [.delayTimer, .soundTimer, .redraw, .sound] s t

/-! ### The whole machine -/

/-- Every instruction leaves the `pc` its policy gives; the increments of an instruction that can
execute never wrap; and a `pc` past the end of memory faults at the next fetch (40_step_cycle R86). -/
def Obligations.EveryInstructionFollowsItsPcPolicy : Prop :=
  ∀ (i : Instr) (s t : State), exec i s = .next t →
    PcPolicy s t.pc i ∧
    (s.pc.toNat ≤ 4094 → (s.pc + 4).toNat = s.pc.toNat + 4 ∧ (s.pc + 2).toNat = s.pc.toNat + 2) ∧
    (4095 ≤ t.pc.toNat → step t.tick = .fault (.outOfBounds .fetch t.pc.toNat))

/-- Every element is written only by the instructions R10's table lists for it, and there only where
the instruction's own operands point (10_state section 1; 41 to 45, the frame of every instruction). -/
def Obligations.OnlyListedWritersWrite : Prop :=
  ∀ (i : Instr) (s t : State), exec i s = .next t → SameOutside (MayWrite s i) s t

/-- The same of a whole step: beyond its instruction's writes a step touches only the two timers and
the two transient flags, and never the keypad (10_state sections 1 and 6). -/
def Obligations.StepWritesOnlyListedElements : Prop :=
  ∀ (i : Instr) (s t : State), Executes s i → step s = .next t →
    SameOutside
      (fun e => MayWrite s i e ∨
        e ∈ ([.delayTimer, .soundTimer, .redraw, .sound] : List Elem)) s t

/-- I is written by Annn, Fx1E and Fx29 as their rules say and by no other instruction; it starts at
0 (10_state R14). -/
def Obligations.OnlyThreeInstructionsWriteI : Prop :=
  (∀ (i : Instr) (s t : State), exec i s = .next t →
    t.i.toNat =
      match i with
      | .ldI nnn => nnn.toNat
      | .addI x => (s.i.toNat + (s.getV x).toNat) % 65536
      | .ldFont x => (s.getV x).toNat * 5
      | _ => s.i.toNat) ∧
  State.reset.i = 0

/-- Only Ex9E, ExA1 and Fx0A depend on the keypad, and only Cxnn and Fx0A on the draws: every other
instruction gives the same result whatever they hold (40_step_cycle, determinism; the draw counter is
the model's own, assumption 4). -/
def Obligations.OthersIgnoreKeypadAndDraws : Prop :=
  ∀ (i : Instr) (s : State),
    ((∀ x, i ≠ .skp x ∧ i ≠ .sknp x ∧ i ≠ .ldKey x) →
      ∀ keys, exec i (s.driveKeypad keys) = mapNext (·.driveKeypad keys) (exec i s)) ∧
    ((∀ x nn, i ≠ .rnd x nn ∧ i ≠ .ldKey x) →
      exec i s.nextDraw = mapNext State.nextDraw (exec i s))

/-- The invariant of reachable states is kept by every step, from every state that meets it, and by
the driver's keypad writes (10_state section 11, which the spec derives). -/
def Obligations.EveryStepKeepsTheInvariant : Prop :=
  (∀ s t : State, ReachInv s → step s = .next t → ReachInv t) ∧
  ∀ (s : State) (keys : Vector Bool 16), ReachInv s → ReachInv (s.driveKeypad keys)

/-- The state after reset meets the invariant, whatever font table and image it is given (10_state
sections 9 and 11). -/
def Obligations.ResetMeetsTheInvariant : Prop :=
  ReachInv State.reset ∧
  ∀ (font : FontTable) (image : List Byte) (s : State),
    State.resetWith font image = .ok s → ReachInv s

/-- Every state a run reaches from reset, with any font table and image and under any driver script,
meets the invariant (10_state section 11, which the spec derives). -/
def Obligations.EveryDrivenRunKeepsTheInvariant : Prop :=
  ∀ (font : FontTable) (image : List Byte) (script : List (Vector Bool 16)) (s t : State),
    State.resetWith font image = .ok s → drivenRun script s = .next t → ReachInv t

/-- The elements are the whole state: two states whose memories are in canonical form and whose
elements agree are equal (10_state section 1). -/
def Obligations.ElementsDetermineTheState : Prop :=
  ∀ s t : State, s.mem.wf = true → t.mem.wf = true → (∀ e, s.elem e = t.elem e) → s = t

/-- Reset with an image that fits, on a machine with any font table: the image from 0x200, the font
from 0x000 with glyph 0 as the source gives it, 0 elsewhere, and every other element at its reset value
(10_state sections 8 and 9, 70_reset_and_hazards section 1; that the font is a configuration is D16). -/
def Obligations.ResetPlacesTheImage : Prop :=
  ∀ (font : FontTable) (image : List Byte), image.length ≤ 3584 →
    ∃ s, State.resetWith font image = .ok s ∧
    (∀ k, k < image.length → s.mem.read (0x200 + k) = image.getD k 0) ∧
    (∀ a, 0x200 + image.length ≤ a → s.mem.read a = 0) ∧
    (∀ a, 0x50 ≤ a → a < 0x200 → s.mem.read a = 0) ∧
    (∀ a, a < 0x50 → s.mem.read a = font.bytes.getD a 0) ∧
    (∀ k (hk : k < 75), s.mem.read (5 + k) = font.glyphs[k]) ∧
    (List.range 5).map s.mem.read = [0xF0, 0x90, 0x90, 0x90, 0xF0] ∧
    (∀ r, s.getV r = 0) ∧ s.i = 0 ∧ s.pc = 0x200 ∧ (∀ k, s.getSlot k = 0) ∧ s.sp = 0 ∧ s.dt = 0 ∧
    s.st = 0 ∧ s.redrawPending = false ∧ s.soundPending = false ∧ (∀ k, s.key k = false) ∧
    ∀ j, s.pixel j = false

/-- After reset with any font table, Fx29 of a key digit points at that digit's glyph: five bytes of the
table the machine was given (10_state section 9, 43_index_memory, Fx29; that the font is a configuration
is D16). -/
def Obligations.FontAddressOfDigit : Prop :=
  ∀ (font : FontTable) (image : List Byte) (s : State), State.resetWith font image = .ok s →
    ∀ (x : Reg) (k : BitVec 4), ∃ t, exec (.ldFont x) (s.setV x (k.setWidth 8)) = .next t ∧
      t.i.toNat = 5 * k.toNat ∧
      ∀ r, r < 5 → t.mem.read (t.i.toNat + r) = font.bytes.getD (5 * k.toNat + r) 0

/-- An image above 3584 bytes is refused with `RomTooLarge`; the empty image is accepted and the first
step after it raises `UnknownOpcode(0x0000)`, with any font table; with the default one (assumption 1) it
gives `State.reset` (70_reset_and_hazards section 1, the clause on the first step derived by the spec). -/
def Obligations.ResetRejectsLargeImages : Prop :=
  (∀ (font : FontTable) (image : List Byte), 3584 < image.length →
    State.resetWith font image = .error .romTooLarge) ∧
  (∀ font : FontTable, ∃ s, State.resetWith font [] = .ok s ∧
    step s = .fault (.unknownOpcode 0x0000)) ∧
  State.resetWith defaultFont [] = .ok State.reset

/-- From an idle state every step completes and changes only the timers, counting down, and the
transient flags; after 256 steps the state is final and a fixed point of the step
(70_reset_and_hazards section 4; idle and final are the spec's definitions, D20). -/
def Obligations.IdleRunsToAFixedPoint : Prop :=
  ∀ s : State, Idle s →
    (∀ n, ∃ t, Runs n s t ∧ Idle t ∧ t.dt.toNat = s.dt.toNat - n ∧ t.st.toNat = s.st.toNat - n ∧
      SameExcept [.delayTimer, .soundTimer, .redraw, .sound] s t) ∧
    ∃ t, Runs 256 s t ∧ Final t ∧ step t = .next t
end

