-- ==== Sys2Proof/Laws/Decode.lean ====
section
/-! SUPPORT. The fields of a composed word, and the bytes of a word. -/

namespace Sys2Proof

/-- A slice above the low part of a composed word is a slice of its high part. -/
theorem extract_append_high {k m : Nat} (a : BitVec k) (b : BitVec m) {lo len : Nat} (h : m ≤ lo) :
    (a ++ b).extractLsb' lo len = a.extractLsb' (lo - m) len := by
  apply BitVec.eq_of_getLsbD_eq
  intro i hi
  have h1 : ¬ lo + i < m := by omega
  have h2 : lo + i - m = lo - m + i := by omega
  simp [BitVec.getLsbD_append, h1, h2]

/-- A slice within the low part of a composed word is a slice of that part. -/
theorem extract_append_low {k m : Nat} (a : BitVec k) (b : BitVec m) {lo len : Nat}
    (h : lo + len ≤ m) : (a ++ b).extractLsb' lo len = b.extractLsb' lo len := by
  apply BitVec.eq_of_getLsbD_eq
  intro i hi
  have h1 : lo + i < m := by omega
  simp [BitVec.getLsbD_append, h1]

/-! ### Fields of the formats (30_encoding R61, R62) -/

@[simp] theorem fieldCat_wordNnn (c : Nibble) (nnn : Addr12) : fieldCat (wordNnn c nnn) = c :=
  (extract_append_high c nnn (by decide)).trans (by simp)

@[simp] theorem fieldNnn_wordNnn (c : Nibble) (nnn : Addr12) : fieldNnn (wordNnn c nnn) = nnn :=
  (extract_append_low c nnn (by decide)).trans (by simp)

@[simp] theorem fieldCat_wordXnn (c : Nibble) (x : Reg) (nn : Byte) :
    fieldCat (wordXnn c x nn) = c :=
  (extract_append_high (c ++ x) nn (by decide)).trans ((extract_append_high c x (by decide)).trans (by simp))

@[simp] theorem fieldX_wordXnn (c : Nibble) (x : Reg) (nn : Byte) : fieldX (wordXnn c x nn) = x :=
  (extract_append_high (c ++ x) nn (by decide)).trans ((extract_append_low c x (by decide)).trans (by simp))

@[simp] theorem fieldNn_wordXnn (c : Nibble) (x : Reg) (nn : Byte) :
    fieldNn (wordXnn c x nn) = nn :=
  (extract_append_low (c ++ x) nn (by decide)).trans (by simp)

@[simp] theorem fieldCat_wordXyn (c : Nibble) (x y : Reg) (n : Nibble) :
    fieldCat (wordXyn c x y n) = c :=
  (extract_append_high (c ++ x) (y ++ n) (by decide)).trans ((extract_append_high c x (by decide)).trans (by simp))

@[simp] theorem fieldX_wordXyn (c : Nibble) (x y : Reg) (n : Nibble) :
    fieldX (wordXyn c x y n) = x :=
  (extract_append_high (c ++ x) (y ++ n) (by decide)).trans ((extract_append_low c x (by decide)).trans (by simp))

@[simp] theorem fieldY_wordXyn (c : Nibble) (x y : Reg) (n : Nibble) :
    fieldY (wordXyn c x y n) = y :=
  (extract_append_low (c ++ x) (y ++ n) (by decide)).trans ((extract_append_high y n (by decide)).trans (by simp))

@[simp] theorem fieldN_wordXyn (c : Nibble) (x y : Reg) (n : Nibble) :
    fieldN (wordXyn c x y n) = n :=
  (extract_append_low (c ++ x) (y ++ n) (by decide)).trans ((extract_append_low y n (by decide)).trans (by simp))

/-! ### A word is its fields -/

theorem wordNnn_fields (op : Word) : wordNnn (fieldCat op) (fieldNnn op) = op := by
  apply BitVec.eq_of_getLsbD_eq
  intro i hi
  simp only [wordNnn, fieldCat, fieldNnn, BitVec.getLsbD_append, BitVec.getLsbD_extractLsb']
  by_cases h : i < 12
  · simp [h]
  · have h1 : i - 12 < 4 := by omega
    have h2 : 12 + (i - 12) = i := by omega
    simp [h, h1, h2]

theorem wordXnn_fields (op : Word) : wordXnn (fieldCat op) (fieldX op) (fieldNn op) = op := by
  apply BitVec.eq_of_getLsbD_eq
  intro i hi
  simp only [wordXnn, fieldCat, fieldX, fieldNn, BitVec.getLsbD_append, BitVec.getLsbD_extractLsb']
  by_cases h : i < 8
  · simp [h]
  · by_cases h' : i - 8 < 4
    · have h2 : 8 + (i - 8) = i := by omega
      simp [h, h', h2]
    · have h1 : i - 8 - 4 < 4 := by omega
      have h2 : 12 + (i - 8 - 4) = i := by omega
      simp [h, h', h1, h2]

theorem wordXyn_fields (op : Word) :
    wordXyn (fieldCat op) (fieldX op) (fieldY op) (fieldN op) = op := by
  apply BitVec.eq_of_getLsbD_eq
  intro i hi
  simp only [wordXyn, fieldCat, fieldX, fieldY, fieldN, BitVec.getLsbD_append,
    BitVec.getLsbD_extractLsb']
  by_cases h : i < 8
  · by_cases h' : i < 4
    · simp [h, h']
    · have h1 : i - 4 < 4 := by omega
      have h2 : 4 + (i - 4) = i := by omega
      simp [h, h', h1, h2]
  · by_cases h' : i - 8 < 4
    · have h2 : 8 + (i - 8) = i := by omega
      simp [h, h', h2]
    · have h1 : i - 8 - 4 < 4 := by omega
      have h2 : 12 + (i - 8 - 4) = i := by omega
      simp [h, h', h1, h2]

/-! ### Bytes (30_encoding R60) -/

@[simp] theorem joinBytes_high_low (op : Word) : joinBytes (highByte op) (lowByte op) = op := by
  apply BitVec.eq_of_getLsbD_eq
  intro i hi
  simp only [joinBytes, highByte, lowByte, BitVec.getLsbD_append, BitVec.getLsbD_extractLsb']
  by_cases h : i < 8
  · simp [h]
  · have h1 : i - 8 < 8 := by omega
    have h2 : 8 + (i - 8) = i := by omega
    simp [h, h1, h2]

@[simp] theorem highByte_joinBytes (hi lo : Byte) : highByte (joinBytes hi lo) = hi :=
  (extract_append_high hi lo (by decide)).trans (by simp)

@[simp] theorem lowByte_joinBytes (hi lo : Byte) : lowByte (joinBytes hi lo) = lo :=
  (extract_append_low hi lo (by decide)).trans (by simp)

end Sys2Proof
end

