-- ==== Sys2Proof/Laws/Memory.lean ====
section
/-! SUPPORT. Memory: what a read gives after each operation, and that each keeps the canonical form. -/

namespace Sys2Proof.Machine

/-! ### Reads -/

theorem Memory.read_insert (m : Memory) (a : Nat) (w : Byte) (b : Nat) :
    (Memory.insert m a w).read b = if b = a then w else m.read b := by
  induction m with
  | nil => simp [Memory.insert, Memory.read]
  | cons c m ih =>
    obtain ⟨k, u⟩ := c
    unfold Memory.insert
    split
    · simp [Memory.read]
    · split
      · subst_vars
        simp only [Memory.read]
        split <;> rfl
      · simp only [Memory.read, ih]
        have : ¬ a = k := by assumption
        by_cases h : b = k
        · simp [h]
          omega
        · simp [h]

theorem Memory.read_erase (m : Memory) (a b : Nat) :
    (Memory.erase m a).read b = if b = a then resetByte a else m.read b := by
  induction m with
  | nil =>
    simp only [Memory.erase, Memory.read]
    split <;> simp_all
  | cons c m ih =>
    obtain ⟨k, u⟩ := c
    unfold Memory.erase
    by_cases h : a = k
    · simp only [h, if_true]
      rw [← h, ih]
      by_cases hb : b = a <;> simp [hb, Memory.read]
    · simp only [h, if_false, Memory.read, ih]
      by_cases hb : b = k
      · have : ¬ b = a := by omega
        simp [hb]
        omega
      · simp [hb]

/-- A byte reads as the last value written to it, and a write leaves every other byte alone
(20_memory R43, R50). -/
theorem Memory.read_write (m : Memory) {a : Nat} (ha : a < Config.memSize) (w : Byte) (b : Nat) :
    (m.write a w).read b = if b = a then w else m.read b := by
  unfold Memory.write
  rw [if_pos ha]
  split
  · subst_vars
    exact Memory.read_erase m a b
  · exact Memory.read_insert m a w b

/-- Consecutive writes inside memory: each byte of the list at its address, all others as before. -/
theorem Memory.read_writeBytes (m : Memory) (a : Nat) (ws : List Byte)
    (h : a + ws.length ≤ Config.memSize) (b : Nat) :
    (m.writeBytes a ws).read b =
      if a ≤ b ∧ b < a + ws.length then ws.getD (b - a) 0 else m.read b := by
  induction ws generalizing m a with
  | nil =>
    have : ¬ (a ≤ b ∧ b < a) := by omega
    simp [Memory.writeBytes, this]
  | cons w ws ih =>
    simp only [List.length_cons] at h ⊢
    rw [Memory.writeBytes, ih _ _ (by omega), Memory.read_write m (by omega)]
    by_cases h1 : b = a
    · subst h1
      simp
    · by_cases h2 : a + 1 ≤ b ∧ b < a + 1 + ws.length
      · have h3 : a ≤ b ∧ b < a + (ws.length + 1) := by omega
        have h4 : b - a = (b - (a + 1)) + 1 := by omega
        rw [if_pos h2, if_pos h3, h4, List.getD_cons_succ]
      · have h3 : ¬ (a ≤ b ∧ b < a + (ws.length + 1)) := by omega
        rw [if_neg h2, if_neg h1, if_neg h3]

/-! ### The canonical form -/

theorem Memory.wfFrom_cons {lo a : Nat} {w : Byte} {m : Memory} :
    Memory.wfFrom lo ((a, w) :: m) = true ↔
      lo ≤ a ∧ a < Config.memSize ∧ w ≠ resetByte a ∧ Memory.wfFrom (a + 1) m = true := by
  simp [Memory.wfFrom, and_assoc]

theorem Memory.wfFrom_mono {lo lo' : Nat} {m : Memory} (h : lo ≤ lo')
    (hm : Memory.wfFrom lo' m = true) : Memory.wfFrom lo m = true := by
  cases m with
  | nil => rfl
  | cons c m =>
    obtain ⟨a, w⟩ := c
    rw [Memory.wfFrom_cons] at *
    exact ⟨by omega, hm.2⟩

theorem Memory.wfFrom_insert {lo a : Nat} {w : Byte} {m : Memory} (hm : Memory.wfFrom lo m = true)
    (hlo : lo ≤ a) (ha : a < Config.memSize) (hw : w ≠ resetByte a) :
    Memory.wfFrom lo (Memory.insert m a w) = true := by
  induction m generalizing lo with
  | nil => simp [Memory.insert, Memory.wfFrom, hlo, ha, hw]
  | cons c m ih =>
    obtain ⟨b, u⟩ := c
    rw [Memory.wfFrom_cons] at hm
    unfold Memory.insert
    split
    · rw [Memory.wfFrom_cons, Memory.wfFrom_cons]
      exact ⟨hlo, ha, hw, by omega, hm.2⟩
    · split
      · subst_vars
        rw [Memory.wfFrom_cons]
        exact ⟨hlo, ha, hw, hm.2.2.2⟩
      · rw [Memory.wfFrom_cons]
        exact ⟨hm.1, hm.2.1, hm.2.2.1, ih hm.2.2.2 (by omega)⟩

theorem Memory.wfFrom_erase {lo : Nat} (a : Nat) {m : Memory} (hm : Memory.wfFrom lo m = true) :
    Memory.wfFrom lo (Memory.erase m a) = true := by
  induction m generalizing lo with
  | nil => rfl
  | cons c m ih =>
    obtain ⟨b, u⟩ := c
    rw [Memory.wfFrom_cons] at hm
    unfold Memory.erase
    split
    · exact ih (Memory.wfFrom_mono (by omega) hm.2.2.2)
    · rw [Memory.wfFrom_cons]
      exact ⟨hm.1, hm.2.1, hm.2.2.1, ih hm.2.2.2⟩

/-- A write keeps the canonical form. -/
theorem Memory.wf_write {m : Memory} (hm : m.wf = true) (a : Nat) (w : Byte) :
    (m.write a w).wf = true := by
  unfold Memory.write
  split
  · split
    · exact Memory.wfFrom_erase a hm
    · exact Memory.wfFrom_insert hm (Nat.zero_le a) (by assumption) (by assumption)
  · exact hm

/-- Consecutive writes keep the canonical form. -/
theorem Memory.wf_writeBytes {m : Memory} (hm : m.wf = true) (a : Nat) (ws : List Byte) :
    (m.writeBytes a ws).wf = true := by
  induction ws generalizing m a with
  | nil => exact hm
  | cons w ws ih => exact ih (Memory.wf_write hm a w) (a + 1)

/-- Below its first cell a canonical memory reads as its reset contents. -/
theorem Memory.read_of_lt {lo : Nat} {m : Memory} (hm : Memory.wfFrom lo m = true) {a : Nat}
    (ha : a < lo) : m.read a = resetByte a := by
  induction m generalizing lo with
  | nil => rfl
  | cons c m ih =>
    obtain ⟨b, u⟩ := c
    rw [Memory.wfFrom_cons] at hm
    have : ¬ a = b := by omega
    simp only [Memory.read, this, if_false]
    exact ih hm.2.2.2 (by omega)

/-- Equal memories are equal data: canonical memories that read alike are the same list. -/
theorem Memory.ext_of_wfFrom {lo lo' : Nat} {m m' : Memory} (hm : Memory.wfFrom lo m = true)
    (hm' : Memory.wfFrom lo' m' = true) (h : ∀ a, m.read a = m'.read a) : m = m' := by
  induction m generalizing lo lo' m' with
  | nil =>
    cases m' with
    | nil => rfl
    | cons c m' =>
      obtain ⟨b, u⟩ := c
      rw [Memory.wfFrom_cons] at hm'
      have := h b
      simp only [Memory.read, if_true] at this
      exact absurd this.symm hm'.2.2.1
  | cons c m ih =>
    obtain ⟨a, w⟩ := c
    have hm0 := hm
    rw [Memory.wfFrom_cons] at hm
    cases m' with
    | nil =>
      have := h a
      simp only [Memory.read, if_true] at this
      exact absurd this hm.2.2.1
    | cons c' m' =>
      obtain ⟨b, u⟩ := c'
      have hm0' := hm'
      rw [Memory.wfFrom_cons] at hm'
      have hab : a = b := by
        rcases Nat.lt_trichotomy a b with hlt | heq | hgt
        · have h1 := h a
          rw [Memory.read_of_lt (lo := b) (m := (b, u) :: m')
            (by rw [Memory.wfFrom_cons]; exact ⟨le_refl _, hm'.2⟩) hlt] at h1
          simp only [Memory.read, if_true] at h1
          exact absurd h1 hm.2.2.1
        · exact heq
        · have h1 := h b
          rw [Memory.read_of_lt (lo := a) (m := (a, w) :: m)
            (by rw [Memory.wfFrom_cons]; exact ⟨le_refl _, hm.2⟩) hgt] at h1
          simp only [Memory.read, if_true] at h1
          exact absurd h1.symm hm'.2.2.1
      subst hab
      have hw : w = u := by
        have := h a
        simpa [Memory.read] using this
      subst hw
      have : m = m' := by
        refine ih hm.2.2.2 hm'.2.2.2 fun c => ?_
        by_cases hc : c = a
        · subst hc
          rw [Memory.read_of_lt hm.2.2.2 (Nat.lt_succ_self c),
            Memory.read_of_lt hm'.2.2.2 (Nat.lt_succ_self c)]
        · have := h c
          simpa [Memory.read, hc] using this
      rw [this]

end Sys2Proof.Machine
end

