-- ==== Sys2Proof/Laws/State.lean ====
section
/-! SUPPORT. The small lemmas of State: one per field per update, and one per view per update. -/

namespace Sys2Proof.Machine

variable (s : State)

/-! ### `State.setV` -/

@[simp] theorem State.setV_mem (x : Reg) (b : Byte) : (s.setV x b).mem = s.mem := rfl
@[simp] theorem State.setV_v (x : Reg) (b : Byte) : (s.setV x b).v = s.v.set x.toNat b x.isLt := rfl
@[simp] theorem State.setV_i (x : Reg) (b : Byte) : (s.setV x b).i = s.i := rfl
@[simp] theorem State.setV_pc (x : Reg) (b : Byte) : (s.setV x b).pc = s.pc := rfl
@[simp] theorem State.setV_stack (x : Reg) (b : Byte) : (s.setV x b).stack = s.stack := rfl
@[simp] theorem State.setV_sp (x : Reg) (b : Byte) : (s.setV x b).sp = s.sp := rfl
@[simp] theorem State.setV_keypad (x : Reg) (b : Byte) : (s.setV x b).keypad = s.keypad := rfl
@[simp] theorem State.setV_fb (x : Reg) (b : Byte) : (s.setV x b).fb = s.fb := rfl
@[simp] theorem State.setV_dt (x : Reg) (b : Byte) : (s.setV x b).dt = s.dt := rfl
@[simp] theorem State.setV_st (x : Reg) (b : Byte) : (s.setV x b).st = s.st := rfl
@[simp] theorem State.setV_redrawPending (x : Reg) (b : Byte) : (s.setV x b).redrawPending = s.redrawPending := rfl
@[simp] theorem State.setV_soundPending (x : Reg) (b : Byte) : (s.setV x b).soundPending = s.soundPending := rfl
@[simp] theorem State.setV_draws (x : Reg) (b : Byte) : (s.setV x b).draws = s.draws := rfl

/-! ### `State.setI` -/

@[simp] theorem State.setI_mem (w : Word) : (s.setI w).mem = s.mem := rfl
@[simp] theorem State.setI_v (w : Word) : (s.setI w).v = s.v := rfl
@[simp] theorem State.setI_i (w : Word) : (s.setI w).i = w := rfl
@[simp] theorem State.setI_pc (w : Word) : (s.setI w).pc = s.pc := rfl
@[simp] theorem State.setI_stack (w : Word) : (s.setI w).stack = s.stack := rfl
@[simp] theorem State.setI_sp (w : Word) : (s.setI w).sp = s.sp := rfl
@[simp] theorem State.setI_keypad (w : Word) : (s.setI w).keypad = s.keypad := rfl
@[simp] theorem State.setI_fb (w : Word) : (s.setI w).fb = s.fb := rfl
@[simp] theorem State.setI_dt (w : Word) : (s.setI w).dt = s.dt := rfl
@[simp] theorem State.setI_st (w : Word) : (s.setI w).st = s.st := rfl
@[simp] theorem State.setI_redrawPending (w : Word) : (s.setI w).redrawPending = s.redrawPending := rfl
@[simp] theorem State.setI_soundPending (w : Word) : (s.setI w).soundPending = s.soundPending := rfl
@[simp] theorem State.setI_draws (w : Word) : (s.setI w).draws = s.draws := rfl

/-! ### `State.setPc` -/

@[simp] theorem State.setPc_mem (w : Word) : (s.setPc w).mem = s.mem := rfl
@[simp] theorem State.setPc_v (w : Word) : (s.setPc w).v = s.v := rfl
@[simp] theorem State.setPc_i (w : Word) : (s.setPc w).i = s.i := rfl
@[simp] theorem State.setPc_pc (w : Word) : (s.setPc w).pc = w := rfl
@[simp] theorem State.setPc_stack (w : Word) : (s.setPc w).stack = s.stack := rfl
@[simp] theorem State.setPc_sp (w : Word) : (s.setPc w).sp = s.sp := rfl
@[simp] theorem State.setPc_keypad (w : Word) : (s.setPc w).keypad = s.keypad := rfl
@[simp] theorem State.setPc_fb (w : Word) : (s.setPc w).fb = s.fb := rfl
@[simp] theorem State.setPc_dt (w : Word) : (s.setPc w).dt = s.dt := rfl
@[simp] theorem State.setPc_st (w : Word) : (s.setPc w).st = s.st := rfl
@[simp] theorem State.setPc_redrawPending (w : Word) : (s.setPc w).redrawPending = s.redrawPending := rfl
@[simp] theorem State.setPc_soundPending (w : Word) : (s.setPc w).soundPending = s.soundPending := rfl
@[simp] theorem State.setPc_draws (w : Word) : (s.setPc w).draws = s.draws := rfl

/-! ### `State.advance` -/

@[simp] theorem State.advance_mem (k : Word) : (s.advance k).mem = s.mem := rfl
@[simp] theorem State.advance_v (k : Word) : (s.advance k).v = s.v := rfl
@[simp] theorem State.advance_i (k : Word) : (s.advance k).i = s.i := rfl
@[simp] theorem State.advance_pc (k : Word) : (s.advance k).pc = s.pc + k := rfl
@[simp] theorem State.advance_stack (k : Word) : (s.advance k).stack = s.stack := rfl
@[simp] theorem State.advance_sp (k : Word) : (s.advance k).sp = s.sp := rfl
@[simp] theorem State.advance_keypad (k : Word) : (s.advance k).keypad = s.keypad := rfl
@[simp] theorem State.advance_fb (k : Word) : (s.advance k).fb = s.fb := rfl
@[simp] theorem State.advance_dt (k : Word) : (s.advance k).dt = s.dt := rfl
@[simp] theorem State.advance_st (k : Word) : (s.advance k).st = s.st := rfl
@[simp] theorem State.advance_redrawPending (k : Word) : (s.advance k).redrawPending = s.redrawPending := rfl
@[simp] theorem State.advance_soundPending (k : Word) : (s.advance k).soundPending = s.soundPending := rfl
@[simp] theorem State.advance_draws (k : Word) : (s.advance k).draws = s.draws := rfl

/-! ### `State.setSlot` -/

@[simp] theorem State.setSlot_mem (k : BitVec 4) (w : Word) : (s.setSlot k w).mem = s.mem := rfl
@[simp] theorem State.setSlot_v (k : BitVec 4) (w : Word) : (s.setSlot k w).v = s.v := rfl
@[simp] theorem State.setSlot_i (k : BitVec 4) (w : Word) : (s.setSlot k w).i = s.i := rfl
@[simp] theorem State.setSlot_pc (k : BitVec 4) (w : Word) : (s.setSlot k w).pc = s.pc := rfl
@[simp] theorem State.setSlot_stack (k : BitVec 4) (w : Word) : (s.setSlot k w).stack = s.stack.set k.toNat w k.isLt := rfl
@[simp] theorem State.setSlot_sp (k : BitVec 4) (w : Word) : (s.setSlot k w).sp = s.sp := rfl
@[simp] theorem State.setSlot_keypad (k : BitVec 4) (w : Word) : (s.setSlot k w).keypad = s.keypad := rfl
@[simp] theorem State.setSlot_fb (k : BitVec 4) (w : Word) : (s.setSlot k w).fb = s.fb := rfl
@[simp] theorem State.setSlot_dt (k : BitVec 4) (w : Word) : (s.setSlot k w).dt = s.dt := rfl
@[simp] theorem State.setSlot_st (k : BitVec 4) (w : Word) : (s.setSlot k w).st = s.st := rfl
@[simp] theorem State.setSlot_redrawPending (k : BitVec 4) (w : Word) : (s.setSlot k w).redrawPending = s.redrawPending := rfl
@[simp] theorem State.setSlot_soundPending (k : BitVec 4) (w : Word) : (s.setSlot k w).soundPending = s.soundPending := rfl
@[simp] theorem State.setSlot_draws (k : BitVec 4) (w : Word) : (s.setSlot k w).draws = s.draws := rfl

/-! ### `State.setSp` -/

@[simp] theorem State.setSp_mem (k : BitVec 4) : (s.setSp k).mem = s.mem := rfl
@[simp] theorem State.setSp_v (k : BitVec 4) : (s.setSp k).v = s.v := rfl
@[simp] theorem State.setSp_i (k : BitVec 4) : (s.setSp k).i = s.i := rfl
@[simp] theorem State.setSp_pc (k : BitVec 4) : (s.setSp k).pc = s.pc := rfl
@[simp] theorem State.setSp_stack (k : BitVec 4) : (s.setSp k).stack = s.stack := rfl
@[simp] theorem State.setSp_sp (k : BitVec 4) : (s.setSp k).sp = k := rfl
@[simp] theorem State.setSp_keypad (k : BitVec 4) : (s.setSp k).keypad = s.keypad := rfl
@[simp] theorem State.setSp_fb (k : BitVec 4) : (s.setSp k).fb = s.fb := rfl
@[simp] theorem State.setSp_dt (k : BitVec 4) : (s.setSp k).dt = s.dt := rfl
@[simp] theorem State.setSp_st (k : BitVec 4) : (s.setSp k).st = s.st := rfl
@[simp] theorem State.setSp_redrawPending (k : BitVec 4) : (s.setSp k).redrawPending = s.redrawPending := rfl
@[simp] theorem State.setSp_soundPending (k : BitVec 4) : (s.setSp k).soundPending = s.soundPending := rfl
@[simp] theorem State.setSp_draws (k : BitVec 4) : (s.setSp k).draws = s.draws := rfl

/-! ### `State.clearPixels` -/

@[simp] theorem State.clearPixels_mem : (s.clearPixels).mem = s.mem := rfl
@[simp] theorem State.clearPixels_v : (s.clearPixels).v = s.v := rfl
@[simp] theorem State.clearPixels_i : (s.clearPixels).i = s.i := rfl
@[simp] theorem State.clearPixels_pc : (s.clearPixels).pc = s.pc := rfl
@[simp] theorem State.clearPixels_stack : (s.clearPixels).stack = s.stack := rfl
@[simp] theorem State.clearPixels_sp : (s.clearPixels).sp = s.sp := rfl
@[simp] theorem State.clearPixels_keypad : (s.clearPixels).keypad = s.keypad := rfl
@[simp] theorem State.clearPixels_fb : (s.clearPixels).fb = Vector.replicate 32 0 := rfl
@[simp] theorem State.clearPixels_dt : (s.clearPixels).dt = s.dt := rfl
@[simp] theorem State.clearPixels_st : (s.clearPixels).st = s.st := rfl
@[simp] theorem State.clearPixels_redrawPending : (s.clearPixels).redrawPending = s.redrawPending := rfl
@[simp] theorem State.clearPixels_soundPending : (s.clearPixels).soundPending = s.soundPending := rfl
@[simp] theorem State.clearPixels_draws : (s.clearPixels).draws = s.draws := rfl

/-! ### `State.setDt` -/

@[simp] theorem State.setDt_mem (b : Byte) : (s.setDt b).mem = s.mem := rfl
@[simp] theorem State.setDt_v (b : Byte) : (s.setDt b).v = s.v := rfl
@[simp] theorem State.setDt_i (b : Byte) : (s.setDt b).i = s.i := rfl
@[simp] theorem State.setDt_pc (b : Byte) : (s.setDt b).pc = s.pc := rfl
@[simp] theorem State.setDt_stack (b : Byte) : (s.setDt b).stack = s.stack := rfl
@[simp] theorem State.setDt_sp (b : Byte) : (s.setDt b).sp = s.sp := rfl
@[simp] theorem State.setDt_keypad (b : Byte) : (s.setDt b).keypad = s.keypad := rfl
@[simp] theorem State.setDt_fb (b : Byte) : (s.setDt b).fb = s.fb := rfl
@[simp] theorem State.setDt_dt (b : Byte) : (s.setDt b).dt = b := rfl
@[simp] theorem State.setDt_st (b : Byte) : (s.setDt b).st = s.st := rfl
@[simp] theorem State.setDt_redrawPending (b : Byte) : (s.setDt b).redrawPending = s.redrawPending := rfl
@[simp] theorem State.setDt_soundPending (b : Byte) : (s.setDt b).soundPending = s.soundPending := rfl
@[simp] theorem State.setDt_draws (b : Byte) : (s.setDt b).draws = s.draws := rfl

/-! ### `State.setSt` -/

@[simp] theorem State.setSt_mem (b : Byte) : (s.setSt b).mem = s.mem := rfl
@[simp] theorem State.setSt_v (b : Byte) : (s.setSt b).v = s.v := rfl
@[simp] theorem State.setSt_i (b : Byte) : (s.setSt b).i = s.i := rfl
@[simp] theorem State.setSt_pc (b : Byte) : (s.setSt b).pc = s.pc := rfl
@[simp] theorem State.setSt_stack (b : Byte) : (s.setSt b).stack = s.stack := rfl
@[simp] theorem State.setSt_sp (b : Byte) : (s.setSt b).sp = s.sp := rfl
@[simp] theorem State.setSt_keypad (b : Byte) : (s.setSt b).keypad = s.keypad := rfl
@[simp] theorem State.setSt_fb (b : Byte) : (s.setSt b).fb = s.fb := rfl
@[simp] theorem State.setSt_dt (b : Byte) : (s.setSt b).dt = s.dt := rfl
@[simp] theorem State.setSt_st (b : Byte) : (s.setSt b).st = b := rfl
@[simp] theorem State.setSt_redrawPending (b : Byte) : (s.setSt b).redrawPending = s.redrawPending := rfl
@[simp] theorem State.setSt_soundPending (b : Byte) : (s.setSt b).soundPending = s.soundPending := rfl
@[simp] theorem State.setSt_draws (b : Byte) : (s.setSt b).draws = s.draws := rfl

/-! ### `State.setRedraw` -/

@[simp] theorem State.setRedraw_mem (b : Bool) : (s.setRedraw b).mem = s.mem := rfl
@[simp] theorem State.setRedraw_v (b : Bool) : (s.setRedraw b).v = s.v := rfl
@[simp] theorem State.setRedraw_i (b : Bool) : (s.setRedraw b).i = s.i := rfl
@[simp] theorem State.setRedraw_pc (b : Bool) : (s.setRedraw b).pc = s.pc := rfl
@[simp] theorem State.setRedraw_stack (b : Bool) : (s.setRedraw b).stack = s.stack := rfl
@[simp] theorem State.setRedraw_sp (b : Bool) : (s.setRedraw b).sp = s.sp := rfl
@[simp] theorem State.setRedraw_keypad (b : Bool) : (s.setRedraw b).keypad = s.keypad := rfl
@[simp] theorem State.setRedraw_fb (b : Bool) : (s.setRedraw b).fb = s.fb := rfl
@[simp] theorem State.setRedraw_dt (b : Bool) : (s.setRedraw b).dt = s.dt := rfl
@[simp] theorem State.setRedraw_st (b : Bool) : (s.setRedraw b).st = s.st := rfl
@[simp] theorem State.setRedraw_redrawPending (b : Bool) : (s.setRedraw b).redrawPending = b := rfl
@[simp] theorem State.setRedraw_soundPending (b : Bool) : (s.setRedraw b).soundPending = s.soundPending := rfl
@[simp] theorem State.setRedraw_draws (b : Bool) : (s.setRedraw b).draws = s.draws := rfl

/-! ### `State.setSound` -/

@[simp] theorem State.setSound_mem (b : Bool) : (s.setSound b).mem = s.mem := rfl
@[simp] theorem State.setSound_v (b : Bool) : (s.setSound b).v = s.v := rfl
@[simp] theorem State.setSound_i (b : Bool) : (s.setSound b).i = s.i := rfl
@[simp] theorem State.setSound_pc (b : Bool) : (s.setSound b).pc = s.pc := rfl
@[simp] theorem State.setSound_stack (b : Bool) : (s.setSound b).stack = s.stack := rfl
@[simp] theorem State.setSound_sp (b : Bool) : (s.setSound b).sp = s.sp := rfl
@[simp] theorem State.setSound_keypad (b : Bool) : (s.setSound b).keypad = s.keypad := rfl
@[simp] theorem State.setSound_fb (b : Bool) : (s.setSound b).fb = s.fb := rfl
@[simp] theorem State.setSound_dt (b : Bool) : (s.setSound b).dt = s.dt := rfl
@[simp] theorem State.setSound_st (b : Bool) : (s.setSound b).st = s.st := rfl
@[simp] theorem State.setSound_redrawPending (b : Bool) : (s.setSound b).redrawPending = s.redrawPending := rfl
@[simp] theorem State.setSound_soundPending (b : Bool) : (s.setSound b).soundPending = b := rfl
@[simp] theorem State.setSound_draws (b : Bool) : (s.setSound b).draws = s.draws := rfl

/-! ### `State.nextDraw` -/

@[simp] theorem State.nextDraw_mem : (s.nextDraw).mem = s.mem := rfl
@[simp] theorem State.nextDraw_v : (s.nextDraw).v = s.v := rfl
@[simp] theorem State.nextDraw_i : (s.nextDraw).i = s.i := rfl
@[simp] theorem State.nextDraw_pc : (s.nextDraw).pc = s.pc := rfl
@[simp] theorem State.nextDraw_stack : (s.nextDraw).stack = s.stack := rfl
@[simp] theorem State.nextDraw_sp : (s.nextDraw).sp = s.sp := rfl
@[simp] theorem State.nextDraw_keypad : (s.nextDraw).keypad = s.keypad := rfl
@[simp] theorem State.nextDraw_fb : (s.nextDraw).fb = s.fb := rfl
@[simp] theorem State.nextDraw_dt : (s.nextDraw).dt = s.dt := rfl
@[simp] theorem State.nextDraw_st : (s.nextDraw).st = s.st := rfl
@[simp] theorem State.nextDraw_redrawPending : (s.nextDraw).redrawPending = s.redrawPending := rfl
@[simp] theorem State.nextDraw_soundPending : (s.nextDraw).soundPending = s.soundPending := rfl
@[simp] theorem State.nextDraw_draws : (s.nextDraw).draws = s.draws + 1 := rfl

/-! ### `State.driveKeypad` -/

@[simp] theorem State.driveKeypad_mem (keys : Vector Bool 16) : (s.driveKeypad keys).mem = s.mem := rfl
@[simp] theorem State.driveKeypad_v (keys : Vector Bool 16) : (s.driveKeypad keys).v = s.v := rfl
@[simp] theorem State.driveKeypad_i (keys : Vector Bool 16) : (s.driveKeypad keys).i = s.i := rfl
@[simp] theorem State.driveKeypad_pc (keys : Vector Bool 16) : (s.driveKeypad keys).pc = s.pc := rfl
@[simp] theorem State.driveKeypad_stack (keys : Vector Bool 16) : (s.driveKeypad keys).stack = s.stack := rfl
@[simp] theorem State.driveKeypad_sp (keys : Vector Bool 16) : (s.driveKeypad keys).sp = s.sp := rfl
@[simp] theorem State.driveKeypad_keypad (keys : Vector Bool 16) : (s.driveKeypad keys).keypad = keys := rfl
@[simp] theorem State.driveKeypad_fb (keys : Vector Bool 16) : (s.driveKeypad keys).fb = s.fb := rfl
@[simp] theorem State.driveKeypad_dt (keys : Vector Bool 16) : (s.driveKeypad keys).dt = s.dt := rfl
@[simp] theorem State.driveKeypad_st (keys : Vector Bool 16) : (s.driveKeypad keys).st = s.st := rfl
@[simp] theorem State.driveKeypad_redrawPending (keys : Vector Bool 16) : (s.driveKeypad keys).redrawPending = s.redrawPending := rfl
@[simp] theorem State.driveKeypad_soundPending (keys : Vector Bool 16) : (s.driveKeypad keys).soundPending = s.soundPending := rfl
@[simp] theorem State.driveKeypad_draws (keys : Vector Bool 16) : (s.driveKeypad keys).draws = s.draws := rfl

/-! ### `State.clearFlags`, `State.tick` and `State.togglePixel`: the fields they leave -/

@[simp] theorem State.clearFlags_mem : s.clearFlags.mem = s.mem := rfl
@[simp] theorem State.clearFlags_v : s.clearFlags.v = s.v := rfl
@[simp] theorem State.clearFlags_i : s.clearFlags.i = s.i := rfl
@[simp] theorem State.clearFlags_pc : s.clearFlags.pc = s.pc := rfl
@[simp] theorem State.clearFlags_stack : s.clearFlags.stack = s.stack := rfl
@[simp] theorem State.clearFlags_sp : s.clearFlags.sp = s.sp := rfl
@[simp] theorem State.clearFlags_keypad : s.clearFlags.keypad = s.keypad := rfl
@[simp] theorem State.clearFlags_fb : s.clearFlags.fb = s.fb := rfl
@[simp] theorem State.clearFlags_dt : s.clearFlags.dt = s.dt := rfl
@[simp] theorem State.clearFlags_st : s.clearFlags.st = s.st := rfl
@[simp] theorem State.clearFlags_redrawPending : s.clearFlags.redrawPending = false := rfl
@[simp] theorem State.clearFlags_soundPending : s.clearFlags.soundPending = false := rfl
@[simp] theorem State.clearFlags_draws : s.clearFlags.draws = s.draws := rfl

@[simp] theorem State.tick_mem : s.tick.mem = s.mem := by
  unfold State.tick
  dsimp only
  split <;> split <;> rfl

@[simp] theorem State.tick_v : s.tick.v = s.v := by
  unfold State.tick
  dsimp only
  split <;> split <;> rfl

@[simp] theorem State.tick_i : s.tick.i = s.i := by
  unfold State.tick
  dsimp only
  split <;> split <;> rfl

@[simp] theorem State.tick_pc : s.tick.pc = s.pc := by
  unfold State.tick
  dsimp only
  split <;> split <;> rfl

@[simp] theorem State.tick_stack : s.tick.stack = s.stack := by
  unfold State.tick
  dsimp only
  split <;> split <;> rfl

@[simp] theorem State.tick_sp : s.tick.sp = s.sp := by
  unfold State.tick
  dsimp only
  split <;> split <;> rfl

@[simp] theorem State.tick_keypad : s.tick.keypad = s.keypad := by
  unfold State.tick
  dsimp only
  split <;> split <;> rfl

@[simp] theorem State.tick_fb : s.tick.fb = s.fb := by
  unfold State.tick
  dsimp only
  split <;> split <;> rfl

@[simp] theorem State.tick_redrawPending : s.tick.redrawPending = s.redrawPending := by
  unfold State.tick
  dsimp only
  split <;> split <;> rfl

@[simp] theorem State.tick_draws : s.tick.draws = s.draws := by
  unfold State.tick
  dsimp only
  split <;> split <;> rfl

@[simp] theorem State.togglePixel_mem (j : Nat) : (s.togglePixel j).mem = s.mem := by
  unfold State.togglePixel
  split <;> rfl

@[simp] theorem State.togglePixel_v (j : Nat) : (s.togglePixel j).v = s.v := by
  unfold State.togglePixel
  split <;> rfl

@[simp] theorem State.togglePixel_i (j : Nat) : (s.togglePixel j).i = s.i := by
  unfold State.togglePixel
  split <;> rfl

@[simp] theorem State.togglePixel_pc (j : Nat) : (s.togglePixel j).pc = s.pc := by
  unfold State.togglePixel
  split <;> rfl

@[simp] theorem State.togglePixel_stack (j : Nat) : (s.togglePixel j).stack = s.stack := by
  unfold State.togglePixel
  split <;> rfl

@[simp] theorem State.togglePixel_sp (j : Nat) : (s.togglePixel j).sp = s.sp := by
  unfold State.togglePixel
  split <;> rfl

@[simp] theorem State.togglePixel_keypad (j : Nat) : (s.togglePixel j).keypad = s.keypad := by
  unfold State.togglePixel
  split <;> rfl

@[simp] theorem State.togglePixel_dt (j : Nat) : (s.togglePixel j).dt = s.dt := by
  unfold State.togglePixel
  split <;> rfl

@[simp] theorem State.togglePixel_st (j : Nat) : (s.togglePixel j).st = s.st := by
  unfold State.togglePixel
  split <;> rfl

@[simp] theorem State.togglePixel_redrawPending (j : Nat) : (s.togglePixel j).redrawPending = s.redrawPending := by
  unfold State.togglePixel
  split <;> rfl

@[simp] theorem State.togglePixel_soundPending (j : Nat) : (s.togglePixel j).soundPending = s.soundPending := by
  unfold State.togglePixel
  split <;> rfl

@[simp] theorem State.togglePixel_draws (j : Nat) : (s.togglePixel j).draws = s.draws := by
  unfold State.togglePixel
  split <;> rfl

/-! ### The views under an update of another field -/

@[simp] theorem State.getV_setI (w : Word) (r : Reg) : (s.setI w).getV r = s.getV r := rfl
@[simp] theorem State.getV_setPc (w : Word) (r : Reg) : (s.setPc w).getV r = s.getV r := rfl
@[simp] theorem State.getV_advance (k : Word) (r : Reg) : (s.advance k).getV r = s.getV r := rfl
@[simp] theorem State.getV_setSlot (k : BitVec 4) (w : Word) (r : Reg) : (s.setSlot k w).getV r = s.getV r := rfl
@[simp] theorem State.getV_setSp (k : BitVec 4) (r : Reg) : (s.setSp k).getV r = s.getV r := rfl
@[simp] theorem State.getV_clearPixels (r : Reg) : (s.clearPixels).getV r = s.getV r := rfl
@[simp] theorem State.getV_setDt (b : Byte) (r : Reg) : (s.setDt b).getV r = s.getV r := rfl
@[simp] theorem State.getV_setSt (b : Byte) (r : Reg) : (s.setSt b).getV r = s.getV r := rfl
@[simp] theorem State.getV_setRedraw (b : Bool) (r : Reg) : (s.setRedraw b).getV r = s.getV r := rfl
@[simp] theorem State.getV_setSound (b : Bool) (r : Reg) : (s.setSound b).getV r = s.getV r := rfl
@[simp] theorem State.getV_nextDraw (r : Reg) : (s.nextDraw).getV r = s.getV r := rfl
@[simp] theorem State.getV_driveKeypad (keys : Vector Bool 16) (r : Reg) : (s.driveKeypad keys).getV r = s.getV r := rfl

@[simp] theorem State.getSlot_setV (x : Reg) (b : Byte) (j : BitVec 4) : (s.setV x b).getSlot j = s.getSlot j := rfl
@[simp] theorem State.getSlot_setI (w : Word) (j : BitVec 4) : (s.setI w).getSlot j = s.getSlot j := rfl
@[simp] theorem State.getSlot_setPc (w : Word) (j : BitVec 4) : (s.setPc w).getSlot j = s.getSlot j := rfl
@[simp] theorem State.getSlot_advance (k : Word) (j : BitVec 4) : (s.advance k).getSlot j = s.getSlot j := rfl
@[simp] theorem State.getSlot_setSp (k : BitVec 4) (j : BitVec 4) : (s.setSp k).getSlot j = s.getSlot j := rfl
@[simp] theorem State.getSlot_clearPixels (j : BitVec 4) : (s.clearPixels).getSlot j = s.getSlot j := rfl
@[simp] theorem State.getSlot_setDt (b : Byte) (j : BitVec 4) : (s.setDt b).getSlot j = s.getSlot j := rfl
@[simp] theorem State.getSlot_setSt (b : Byte) (j : BitVec 4) : (s.setSt b).getSlot j = s.getSlot j := rfl
@[simp] theorem State.getSlot_setRedraw (b : Bool) (j : BitVec 4) : (s.setRedraw b).getSlot j = s.getSlot j := rfl
@[simp] theorem State.getSlot_setSound (b : Bool) (j : BitVec 4) : (s.setSound b).getSlot j = s.getSlot j := rfl
@[simp] theorem State.getSlot_nextDraw (j : BitVec 4) : (s.nextDraw).getSlot j = s.getSlot j := rfl
@[simp] theorem State.getSlot_driveKeypad (keys : Vector Bool 16) (j : BitVec 4) : (s.driveKeypad keys).getSlot j = s.getSlot j := rfl

@[simp] theorem State.key_setV (x : Reg) (b : Byte) (j : BitVec 4) : (s.setV x b).key j = s.key j := rfl
@[simp] theorem State.key_setI (w : Word) (j : BitVec 4) : (s.setI w).key j = s.key j := rfl
@[simp] theorem State.key_setPc (w : Word) (j : BitVec 4) : (s.setPc w).key j = s.key j := rfl
@[simp] theorem State.key_advance (k : Word) (j : BitVec 4) : (s.advance k).key j = s.key j := rfl
@[simp] theorem State.key_setSlot (k : BitVec 4) (w : Word) (j : BitVec 4) : (s.setSlot k w).key j = s.key j := rfl
@[simp] theorem State.key_setSp (k : BitVec 4) (j : BitVec 4) : (s.setSp k).key j = s.key j := rfl
@[simp] theorem State.key_clearPixels (j : BitVec 4) : (s.clearPixels).key j = s.key j := rfl
@[simp] theorem State.key_setDt (b : Byte) (j : BitVec 4) : (s.setDt b).key j = s.key j := rfl
@[simp] theorem State.key_setSt (b : Byte) (j : BitVec 4) : (s.setSt b).key j = s.key j := rfl
@[simp] theorem State.key_setRedraw (b : Bool) (j : BitVec 4) : (s.setRedraw b).key j = s.key j := rfl
@[simp] theorem State.key_setSound (b : Bool) (j : BitVec 4) : (s.setSound b).key j = s.key j := rfl
@[simp] theorem State.key_nextDraw (j : BitVec 4) : (s.nextDraw).key j = s.key j := rfl

@[simp] theorem State.pixel_setV (x : Reg) (b : Byte) (j : Nat) : (s.setV x b).pixel j = s.pixel j := rfl
@[simp] theorem State.pixel_setI (w : Word) (j : Nat) : (s.setI w).pixel j = s.pixel j := rfl
@[simp] theorem State.pixel_setPc (w : Word) (j : Nat) : (s.setPc w).pixel j = s.pixel j := rfl
@[simp] theorem State.pixel_advance (k : Word) (j : Nat) : (s.advance k).pixel j = s.pixel j := rfl
@[simp] theorem State.pixel_setSlot (k : BitVec 4) (w : Word) (j : Nat) : (s.setSlot k w).pixel j = s.pixel j := rfl
@[simp] theorem State.pixel_setSp (k : BitVec 4) (j : Nat) : (s.setSp k).pixel j = s.pixel j := rfl
@[simp] theorem State.pixel_setDt (b : Byte) (j : Nat) : (s.setDt b).pixel j = s.pixel j := rfl
@[simp] theorem State.pixel_setSt (b : Byte) (j : Nat) : (s.setSt b).pixel j = s.pixel j := rfl
@[simp] theorem State.pixel_setRedraw (b : Bool) (j : Nat) : (s.setRedraw b).pixel j = s.pixel j := rfl
@[simp] theorem State.pixel_setSound (b : Bool) (j : Nat) : (s.setSound b).pixel j = s.pixel j := rfl
@[simp] theorem State.pixel_nextDraw (j : Nat) : (s.nextDraw).pixel j = s.pixel j := rfl
@[simp] theorem State.pixel_driveKeypad (keys : Vector Bool 16) (j : Nat) : (s.driveKeypad keys).pixel j = s.pixel j := rfl

/-! ### The views under an update of their own field -/

theorem State.getV_setV (x : Reg) (b : Byte) (r : Reg) :
    (s.setV x b).getV r = if r = x then b else s.getV r := by
  simp only [State.getV, State.setV, Vector.getElem_set, BitVec.toNat_inj, eq_comm (a := x)]

@[simp] theorem State.getV_setV_same (x : Reg) (b : Byte) : (s.setV x b).getV x = b := by
  simp [State.getV_setV]

theorem State.getV_setV_ne {x r : Reg} (h : r ≠ x) (b : Byte) : (s.setV x b).getV r = s.getV r := by
  simp [State.getV_setV, h]

theorem State.getSlot_setSlot (k : BitVec 4) (w : Word) (j : BitVec 4) :
    (s.setSlot k w).getSlot j = if j = k then w else s.getSlot j := by
  simp only [State.getSlot, State.setSlot, Vector.getElem_set, BitVec.toNat_inj, eq_comm (a := k)]

@[simp] theorem State.key_driveKeypad (keys : Vector Bool 16) (j : BitVec 4) :
    (s.driveKeypad keys).key j = keys[j.toNat]'j.isLt := rfl

@[simp] theorem State.pixel_clearPixels (j : Nat) : s.clearPixels.pixel j = false := by
  simp only [State.pixel, State.clearPixels, Vector.getElem_replicate]
  split <;> simp

/-- Toggling a pixel of the framebuffer changes that pixel and no other. -/
theorem State.pixel_togglePixel {j : Nat} (hj : j < Config.pixels) (k : Nat) :
    (s.togglePixel j).pixel k = (s.pixel k ^^ decide (k = j)) := by
  have hj' : j / 64 < 32 := by unfold Config.pixels at hj; omega
  simp only [State.togglePixel, State.pixel, hj', dite_true]
  by_cases hk : k / 64 < 32
  · simp only [hk, dite_true, Vector.getElem_set]
    by_cases h : j / 64 = k / 64
    · have hm : k % 64 < 64 := Nat.mod_lt _ (by decide)
      simp [h, hm]
      omega
    · have : k ≠ j := by rintro rfl; exact h rfl
      simp [h, this]
  · have : k ≠ j := by rintro rfl; exact hk hj'
    simp [hk, this]

end Sys2Proof.Machine
end

