-- ==== Sys2Proof/Laws/Elem.lean ====
section
/-! SUPPORT. What each operation does to every element of the state: one lemma per operation, and
the frame lemmas of the composed operations. -/

namespace Sys2Proof.Machine

variable (s : State)

theorem State.elem_setV (x : Reg) (b : Byte) (e : Elem) :
    (s.setV x b).elem e = if e = .reg x then b.toNat else s.elem e := by
  cases e <;> simp [State.elem, State.getV_setV, apply_ite BitVec.toNat]

theorem State.elem_setI (w : Word) (e : Elem) :
    (s.setI w).elem e = if e = .addrReg then w.toNat else s.elem e := by
  cases e <;> simp [State.elem]

theorem State.elem_setPc (w : Word) (e : Elem) :
    (s.setPc w).elem e = if e = .pc then w.toNat else s.elem e := by
  cases e <;> simp [State.elem]

theorem State.elem_advance (k : Word) (e : Elem) :
    (s.advance k).elem e = if e = .pc then (s.pc + k).toNat else s.elem e := by
  cases e <;> simp [State.elem]

theorem State.elem_setSlot (k : BitVec 4) (w : Word) (e : Elem) :
    (s.setSlot k w).elem e = if e = .slot k then w.toNat else s.elem e := by
  cases e <;> simp [State.elem, State.getSlot_setSlot, apply_ite BitVec.toNat]

theorem State.elem_setSp (k : BitVec 4) (e : Elem) :
    (s.setSp k).elem e = if e = .sp then k.toNat else s.elem e := by
  cases e <;> simp [State.elem]

theorem State.elem_setDt (b : Byte) (e : Elem) :
    (s.setDt b).elem e = if e = .delayTimer then b.toNat else s.elem e := by
  cases e <;> simp [State.elem]

theorem State.elem_setSt (b : Byte) (e : Elem) :
    (s.setSt b).elem e = if e = .soundTimer then b.toNat else s.elem e := by
  cases e <;> simp [State.elem]

theorem State.elem_setRedraw (b : Bool) (e : Elem) :
    (s.setRedraw b).elem e = if e = .redraw then b.toNat else s.elem e := by
  cases e <;> simp [State.elem]

theorem State.elem_setSound (b : Bool) (e : Elem) :
    (s.setSound b).elem e = if e = .sound then b.toNat else s.elem e := by
  cases e <;> simp [State.elem]

theorem State.elem_nextDraw (e : Elem) :
    (s.nextDraw).elem e = if e = .draws then s.draws + 1 else s.elem e := by
  cases e <;> simp [State.elem]

theorem State.elem_clearPixels (e : Elem) (he : ∀ j, e ≠ .pixel j) :
    s.clearPixels.elem e = s.elem e := by
  cases e with
  | pixel j => exact absurd rfl (he j)
  | _ => rfl

theorem State.elem_clearFlags (e : Elem) :
    s.clearFlags.elem e = if e = .redraw ∨ e = .sound then 0 else s.elem e := by
  simp only [State.clearFlags, State.elem_setSound, State.elem_setRedraw]
  cases e <;> simp

theorem State.elem_togglePixel {j : Nat} (hj : j < Config.pixels) (e : Elem) :
    (s.togglePixel j).elem e =
      if e = .pixel j then (!s.pixel j).toNat else s.elem e := by
  cases e with
  | pixel k =>
    simp only [State.elem, State.pixel_togglePixel s hj, Elem.pixel.injEq]
    by_cases h : k = j <;> simp [h]
  | _ => simp only [State.togglePixel, State.elem]; split <;> rfl

theorem State.elem_writeBytes (a : Nat) (ws : List Byte) (h : a + ws.length ≤ Config.memSize)
    (e : Elem) (he : ∀ b, a ≤ b → b < a + ws.length → e ≠ .byte b) :
    State.elem { s with mem := s.mem.writeBytes a ws } e = s.elem e := by
  cases e with
  | byte b =>
    simp only [State.elem, Memory.read_writeBytes _ _ _ h]
    by_cases hb : a ≤ b ∧ b < a + ws.length
    · exact absurd rfl (he b hb.1 hb.2)
    · simp [hb]
  | _ => rfl

/-! ### The timer tick (40_step_cycle R88) -/

theorem State.tick_dt : s.tick.dt.toNat = s.dt.toNat - 1 := by
  have h := s.dt.isLt
  unfold State.tick
  by_cases h1 : 0 < s.dt.toNat <;> by_cases h2 : 0 < s.st.toNat <;>
    simp only [h1, h2, if_true, if_false, State.setDt_st, State.setSound_dt, State.setSt_dt,
      State.setDt_dt, BitVec.toNat_sub, BitVec.ofNat_eq_ofNat, BitVec.toNat_ofNat] <;> omega

theorem State.tick_st : s.tick.st.toNat = s.st.toNat - 1 := by
  have h := s.st.isLt
  unfold State.tick
  by_cases h1 : 0 < s.dt.toNat <;> by_cases h2 : 0 < s.st.toNat <;>
    simp only [h1, h2, if_true, if_false, State.setDt_st, State.setSound_st, State.setSt_st,
      BitVec.toNat_sub, BitVec.ofNat_eq_ofNat, BitVec.toNat_ofNat] <;> omega

theorem State.tick_soundPending :
    s.tick.soundPending = (decide (0 < s.st.toNat) || s.soundPending) := by
  unfold State.tick
  by_cases h1 : 0 < s.dt.toNat <;> by_cases h2 : 0 < s.st.toNat <;> simp [h1, h2]

/-- The tick touches the two timers and `sound_pending` only. -/
theorem State.elem_tick (e : Elem) (h1 : e ≠ .delayTimer) (h2 : e ≠ .soundTimer) (h3 : e ≠ .sound) :
    s.tick.elem e = s.elem e := by
  unfold State.tick
  by_cases g1 : 0 < s.dt.toNat <;> by_cases g2 : 0 < s.st.toNat <;>
    simp [g1, g2, State.elem_setSound, State.elem_setSt, State.elem_setDt, h1, h2, h3]

/-! ### Composed operations -/

/-- Loads do not touch memory. -/
@[simp] theorem State.loadFrom_mem (base count : Nat) : (s.loadFrom base count).mem = s.mem := by
  induction count with
  | zero => rfl
  | succ k ih => exact ih

/-- Drawing does not touch memory. -/
theorem State.foldl_drawPixel_mem (js : List Nat) : (js.foldl State.drawPixel s).mem = s.mem := by
  induction js generalizing s with
  | nil => rfl
  | cons j js ih =>
    rw [List.foldl_cons, ih]
    unfold State.drawPixel State.togglePixel
    split <;> split <;> rfl

/-- The registers after `count` loads: those below `count` from memory, the others as before. -/
theorem State.loadFrom_getV (base : Nat) : ∀ (count : Nat), count ≤ 16 → ∀ r : Reg,
    (s.loadFrom base count).getV r =
      if r.toNat < count then s.mem.read (base + r.toNat) else s.getV r := by
  have hm : ∀ k, (s.loadFrom base k).mem = s.mem := by
    intro k
    induction k with
    | zero => rfl
    | succ k ih => exact ih
  intro count
  induction count with
  | zero => intro _ r; simp [State.loadFrom]
  | succ k ih =>
    intro hk r
    simp only [State.loadFrom, State.getV_setV, hm, ih (by omega)]
    by_cases h : r = BitVec.ofNat 4 k
    · have : (BitVec.ofNat 4 k).toNat = k := by simp; omega
      subst h
      simp [this]
    · have : r.toNat ≠ k := by
        rintro rfl
        exact h (by simp)
      simp only [h, if_false]
      congr 1
      simp only [eq_iff_iff]
      omega

/-- Loads touch the registers below `count` only. -/
theorem State.elem_loadFrom (base : Nat) (count : Nat) (hc : count ≤ 16) (e : Elem)
    (he : ∀ r : Reg, r.toNat < count → e ≠ .reg r) : (s.loadFrom base count).elem e = s.elem e := by
  induction count with
  | zero => rfl
  | succ k ih =>
    have hk : (BitVec.ofNat 4 k).toNat = k := by simp; omega
    simp only [State.loadFrom, State.elem_setV]
    rw [if_neg (he _ (by omega)), ih (by omega) fun r hr => he r (by omega)]

/-- Flag first, then the result from the registers as the flag left them (42_load_arith_logic R133). -/
theorem State.elem_flagThenResult (x y : Reg) (flag result : Byte → Byte → Byte) (e : Elem)
    (h1 : e ≠ .reg VF) (h2 : e ≠ .reg x) :
    (s.flagThenResult x y flag result).elem e = s.elem e := by
  simp [State.flagThenResult, State.elem_setV, h1, h2]

/-- One drawn pixel: the pixel toggles, and VF records a collision. -/
theorem State.elem_drawPixel {j : Nat} (hj : j < Config.pixels) (e : Elem) (h1 : e ≠ .reg VF)
    (h2 : e ≠ .pixel j) : (s.drawPixel j).elem e = s.elem e := by
  unfold State.drawPixel
  rw [State.elem_togglePixel _ hj, if_neg h2]
  split <;> simp [State.elem_setV, h1]

/-- Drawing pixels touches VF and those pixels only. -/
theorem State.elem_foldl_drawPixel (js : List Nat) (hjs : ∀ j ∈ js, j < Config.pixels) (e : Elem)
    (h1 : e ≠ .reg VF) (h2 : ∀ j ∈ js, e ≠ .pixel j) :
    (js.foldl State.drawPixel s).elem e = s.elem e := by
  induction js generalizing s with
  | nil => rfl
  | cons j js ih =>
    rw [List.foldl_cons, ih _ (fun k hk => hjs k (by simp [hk])) (fun k hk => h2 k (by simp [hk])),
      State.elem_drawPixel s (hjs j (by simp)) e h1 (h2 j (by simp))]

theorem State.drawPixel_pixel {j : Nat} (hj : j < Config.pixels) (k : Nat) :
    (s.drawPixel j).pixel k = (s.pixel k ^^ decide (k = j)) := by
  unfold State.drawPixel
  rw [State.pixel_togglePixel _ hj]
  split <;> simp

/-- The framebuffer after drawing distinct pixels: those pixels toggled (44_graphics R153). -/
theorem State.foldl_drawPixel_pixel (js : List Nat) (hjs : ∀ j ∈ js, j < Config.pixels)
    (hd : js.Nodup) (k : Nat) :
    (js.foldl State.drawPixel s).pixel k = (s.pixel k ^^ decide (k ∈ js)) := by
  induction js generalizing s with
  | nil => simp
  | cons j js ih =>
    obtain ⟨hj, hd⟩ := List.nodup_cons.mp hd
    rw [List.foldl_cons, ih _ (fun k hk => hjs k (by simp [hk])) hd,
      State.drawPixel_pixel s (hjs j (by simp))]
    by_cases h : k = j
    · subst h; simp [hj]
    · simp [h]

/-- VF after drawing distinct pixels: 1 if one of them was on, else as before. -/
theorem State.foldl_drawPixel_vf (js : List Nat) (hjs : ∀ j ∈ js, j < Config.pixels)
    (hd : js.Nodup) :
    (js.foldl State.drawPixel s).getV VF = if ∃ j ∈ js, s.pixel j = true then 1 else s.getV VF := by
  have htv : ∀ (t : State) (j : Nat), (t.togglePixel j).getV VF = t.getV VF := by
    intro t j
    unfold State.togglePixel
    split <;> rfl
  induction js generalizing s with
  | nil => simp
  | cons j js ih =>
    obtain ⟨hj, hd⟩ := List.nodup_cons.mp hd
    have hjs' : ∀ k ∈ js, k < Config.pixels := fun k hk => hjs k (by simp [hk])
    have hp : ∀ k ∈ js, (s.drawPixel j).pixel k = s.pixel k := by
      intro k hk
      have : k ≠ j := by rintro rfl; exact hj hk
      rw [State.drawPixel_pixel s (hjs j (by simp))]
      simp [this]
    have he : (∃ k ∈ js, (s.drawPixel j).pixel k = true) ↔ ∃ k ∈ js, s.pixel k = true := by
      constructor <;> rintro ⟨k, hk, h⟩ <;> exact ⟨k, hk, by rw [hp k hk] at *; exact h⟩
    rw [List.foldl_cons, ih _ hjs' hd, if_congr he rfl rfl]
    have hv : (s.drawPixel j).getV VF = if s.pixel j = true then 1 else s.getV VF := by
      unfold State.drawPixel
      rw [htv]
      split <;> simp
    by_cases h1 : ∃ k ∈ js, s.pixel k = true
    · obtain ⟨k, hk, h⟩ := h1
      rw [if_pos ⟨k, hk, h⟩, if_pos ⟨k, List.mem_cons_of_mem j hk, h⟩]
    · rw [if_neg h1, hv]
      refine if_congr ?_ rfl rfl
      simp only [List.mem_cons]
      constructor
      · exact fun h => ⟨j, Or.inl rfl, h⟩
      · rintro ⟨k, rfl | hk, h⟩
        · exact h
        · exact absurd ⟨k, hk, h⟩ h1

end Sys2Proof.Machine
end

