-- ==== Sys2Proof/Laws/Operands.lean ====
section
/-! SUPPORT. What the operand forms, the checks and the raise of a fault can give. -/

namespace Sys2Proof.Machine

variable (s : State)

/-! ### Preconditions -/

/-- A guarded effect completes exactly when its check passes. -/
theorem guarded_next {f : Option Fault} {r : Result} {t : State} :
    guarded f r = .next t ↔ f = none ∧ r = .next t := by
  cases f <;> simp [guarded, raise]

/-- A guarded effect faults by its check, or by what it guards. -/
theorem guarded_fault {f : Option Fault} {r : Result} {g : Fault} :
    guarded f r = .fault g ↔ f = some g ∨ f = none ∧ r = .fault g := by
  cases f <;> simp [guarded, raise]

/-- R44's check passes exactly when every byte exists. -/
theorem State.dataFault_none (len : Nat) : s.dataFault len = none ↔ DataFits s len := by
  cases len with
  | zero => simp [State.dataFault, DataFits]
  | succ k => simp [State.dataFault, State.dataAddr, DataFits]

/-- R44's check fails with the highest address, exactly when some byte does not exist. -/
theorem State.dataFault_some {len : Nat} {f : Fault} : s.dataFault len = some f ↔
    ¬ DataFits s len ∧ f = .outOfBounds .data (s.i.toNat + (len - 1)) := by
  cases len with
  | zero => simp [State.dataFault, DataFits]
  | succ k =>
    by_cases hk : s.i.toNat + k > 4095
    · have hd : ¬ DataFits s (k + 1) := by simp [DataFits]; omega
      rw [State.dataFault, if_pos hk]
      simp [hd, eq_comm]
    · have hd : DataFits s (k + 1) := by simp [DataFits]; omega
      rw [State.dataFault, if_neg hk]
      simp [hd]

/-- The key number check passes exactly when the key exists. -/
theorem State.keyFault_none (x : Reg) : s.keyFault x = none ↔ (s.getV x).toNat ≤ 15 := by
  simp [State.keyFault]

/-- The key number check fails with the key number, exactly when the key does not exist. -/
theorem State.keyFault_some {x : Reg} {f : Fault} : s.keyFault x = some f ↔
    15 < (s.getV x).toNat ∧ f = .outOfBounds .keypad (s.getV x).toNat := by
  unfold State.keyFault
  split <;> simp_all [eq_comm]

/-- The framebuffer check passes exactly when every index is inside. -/
theorem pixelFault_none (js : List Nat) : pixelFault js = none ↔ ∀ j ∈ js, j < Config.pixels := by
  simp [pixelFault]

/-! ### Operand forms -/

/-- A sprite's linear indices are those of its set bits (44_graphics R152). -/
theorem State.mem_spritePixels (vx vy rows j : Nat) :
    j ∈ s.spritePixels vx vy rows ↔
      ∃ r c, r < rows ∧ c < 8 ∧ (s.mem.read (s.i.toNat + r)).getLsbD (7 - c) = true ∧
        j = vx + c + 64 * (vy + r) := by
  simp only [State.spritePixels, spriteRow, spriteBit, spriteIndex, State.dataAddr,
    List.mem_flatMap, List.mem_map, List.mem_filter, List.mem_range]
  constructor
  · rintro ⟨r, hr, c, ⟨hc, hb⟩, rfl⟩
    exact ⟨r, c, hr, hc, hb, rfl⟩
  · rintro ⟨r, c, hr, hc, hb, rfl⟩
    exact ⟨r, hr, c, ⟨hc, hb⟩, rfl⟩

/-- The first answer of a search over the numbers below n. -/
theorem findSome_range {β : Type} (g : Nat → Option β) (n : Nat) (b : β) :
    (List.range n).findSome? g = some b ↔ ∃ r < n, g r = some b ∧ ∀ r' < r, g r' = none := by
  induction n with
  | zero => simp
  | succ n ih =>
    rw [List.range_succ, List.findSome?_append, Option.or_eq_some_iff, ih, List.findSome?_eq_none_iff]
    constructor
    · rintro (⟨r, h1, h2, h3⟩ | ⟨h1, h2⟩)
      · exact ⟨r, by omega, h2, h3⟩
      · exact ⟨n, by omega, by simpa using h2, fun r' hr => h1 r' (List.mem_range.mpr hr)⟩
    · rintro ⟨r, h1, h2, h3⟩
      by_cases h : r = n
      · subst h
        exact Or.inr ⟨fun r' hr => h3 r' (List.mem_range.mp hr), by simpa using h2⟩
      · exact Or.inl ⟨r, by omega, h2, h3⟩

/-- The first set bit of one sprite row that lies outside the framebuffer. -/
theorem State.find_spriteRow (x y : Reg) (r j : Nat) :
    (spriteRow (s.mem.read (s.dataAddr r)) (s.getV x).toNat (s.getV y).toNat r).find?
        (fun j => decide (Config.pixels ≤ j)) = some j ↔
      ∃ c < 8, SpriteSet s r c ∧ j = drawIndex s x y r c ∧ 2048 ≤ j ∧
        ∀ c' < c, SpriteSet s r c' → drawIndex s x y r c' ≤ 2047 := by
  unfold spriteRow
  rw [List.find?_map, List.find?_filter]
  simp only [Option.map_eq_some_iff, List.find?_range_eq_some]
  constructor
  · rintro ⟨c, ⟨h1, h2, h3⟩, rfl⟩
    simp at h1 h2 h3
    refine ⟨c, h2, h1.1, rfl, h1.2, fun c' hc' hs => ?_⟩
    rcases h3 c' hc' with h | h
    · exact absurd (show spriteBit _ _ = true from hs) (by simp [h])
    · exact Nat.le_of_lt_succ h
  · rintro ⟨c, h1, h2, rfl, h3, h4⟩
    refine ⟨c, ⟨?_, by simpa using h1, fun c' hc' => ?_⟩, rfl⟩
    · simp
      exact ⟨h2, h3⟩
    · simp
      cases hb : spriteBit (s.mem.read (s.dataAddr r)) c' with
      | false => exact Or.inl rfl
      | true => exact Or.inr (Nat.lt_succ_of_le (h4 c' hc' hb))

/-- The framebuffer check of a sprite fails with the first set bit, in scan order, outside the
framebuffer (44_graphics R152, 60_exceptions R181). -/
theorem State.pixelFault_some (x y : Reg) (n : Nibble) (f : Fault) :
    pixelFault (s.spritePixels (s.getV x).toNat (s.getV y).toNat n.toNat) = some f ↔
      ∃ j, FirstOutside s x y n j ∧ f = .outOfBounds .framebuffer j := by
  have hnone : ∀ r, (spriteRow (s.mem.read (s.dataAddr r)) (s.getV x).toNat (s.getV y).toNat r).find?
      (fun j => decide (Config.pixels ≤ j)) = none ↔
        ∀ c < 8, SpriteSet s r c → drawIndex s x y r c ≤ 2047 := by
    intro r
    simp [spriteRow, List.find?_eq_none]
    exact ⟨fun h c hc hs => Nat.le_of_lt_succ (h c hc hs),
      fun h c hc hs => Nat.lt_succ_of_le (h c hc hs)⟩
  have hsome : ∀ j, (s.spritePixels (s.getV x).toNat (s.getV y).toNat n.toNat).find?
      (fun j => decide (Config.pixels ≤ j)) = some j ↔ FirstOutside s x y n j := by
    intro j
    unfold State.spritePixels
    rw [List.find?_flatMap, findSome_range]
    simp only [s.find_spriteRow, hnone]
    constructor
    · rintro ⟨r, hr, ⟨c, hc, hs, hj, h2, h3⟩, h4⟩
      refine ⟨r, c, hr, hc, hs, hj, h2, ?_⟩
      rintro r' c' hc' (h | ⟨rfl, h⟩) hs'
      · exact h4 r' h c' hc' hs'
      · exact h3 c' h hs'
    · rintro ⟨r, c, hr, hc, hs, hj, h2, h3⟩
      exact ⟨r, hr, ⟨c, hc, hs, hj, h2, fun c' h hs' => h3 r c' (by omega) (Or.inr ⟨rfl, h⟩) hs'⟩,
        fun r' hr' c' hc' hs' => h3 r' c' hc' (Or.inl hr') hs'⟩
  unfold pixelFault
  simp only [Option.map_eq_some_iff, hsome]
  simp [eq_comm]

/-- The scan finds exactly the pressed keys (45_keypad_timers R163). -/
theorem State.mem_pressedKeys (k : BitVec 4) : k ∈ s.pressedKeys ↔ s.key k = true := by
  simp only [State.pressedKeys, List.mem_filter, List.mem_map, List.mem_range]
  constructor
  · exact fun h => h.2
  · exact fun h => ⟨⟨k.toNat, k.isLt, by simp⟩, h⟩

/-- The drawn key is one of the pressed ones. -/
theorem State.chosenKey_mem (k : BitVec 4) (ks : List (BitVec 4)) : s.chosenKey k ks ∈ k :: ks := by
  have h : Config.keyChoice s.draws % (ks.length + 1) < (k :: ks).length := by
    simpa using Nat.mod_lt _ (Nat.succ_pos _)
  unfold State.chosenKey
  rw [List.getD_eq_getElem _ _ h]
  exact List.getElem_mem h

@[simp] theorem State.regsThrough_length (x : Reg) : (s.regsThrough x).length = x.toNat + 1 := by
  simp [State.regsThrough]

/-- The k-th value stored by Fx55 is `V[k]` (43_index_memory R144). -/
theorem State.regsThrough_getD (x : Reg) {k : Nat} (hk : k ≤ x.toNat) :
    (s.regsThrough x).getD k 0 = s.getV (BitVec.ofNat 4 k) := by
  have : k < (s.regsThrough x).length := by simp; omega
  rw [List.getD_eq_getElem _ _ this]
  simp [State.regsThrough]

@[simp] theorem bcdDigits_length (b : Byte) : (bcdDigits b).length = 3 := rfl

end Sys2Proof.Machine
end

