-- ==== Sys2Proof/Laws/PerInstr.lean ====
section
/-! SUPPORT. The per-instruction family `WellFormedWord`: every instruction's word is one the opcode
map lists (30_encoding R63, R64). One lemma per constructor. -/

namespace Sys2Proof.Laws.WellFormedWord

/-- The instruction is well-formed: its word matches a row of the opcode map. -/
def Statement (i : Instr) : Prop := i.wellFormed = true

/-- A word that one row accepts is well-formed. -/
theorem of_row {op : Word} (r : OpcodeRow) (hr : r ∈ opcodeMap) (h : r.accepts op = true) :
    wellFormedWord op = true :=
  List.any_eq_true.mpr ⟨r, hr, h⟩

theorem nibble_and_all : ∀ c : Nibble, c &&& 0xF#4 = c := by decide

theorem byte_and_all : ∀ b : Byte, b &&& 0xFF#8 = b := by decide

/-- A mask on a format NNN word acts on its two parts. -/
theorem wordNnn_and (c c' : Nibble) (a a' : Addr12) :
    wordNnn c a &&& wordNnn c' a' = wordNnn (c &&& c') (a &&& a') :=
  BitVec.and_append

/-- A mask on a format XNN word acts on its three parts. -/
theorem wordXnn_and (c c' : Nibble) (x x' : Reg) (a a' : Byte) :
    wordXnn c x a &&& wordXnn c' x' a' = wordXnn (c &&& c') (x &&& x') (a &&& a') :=
  BitVec.and_append.trans (congrArg (· ++ (a &&& a')) BitVec.and_append)

/-- A mask on a format XYN word acts on its four parts. -/
theorem wordXyn_and (c c' : Nibble) (x x' y y' : Reg) (n n' : Nibble) :
    wordXyn c x y n &&& wordXyn c' x' y' n' =
      wordXyn (c &&& c') (x &&& x') (y &&& y') (n &&& n') :=
  BitVec.and_append.trans (congrArg₂ (· ++ ·) BitVec.and_append BitVec.and_append)

/-- A row of mask F000 accepts every word of its category in format NNN. -/
theorem accepts_nnn (k : Nat) (c : Nibble) (a : Addr12) :
    OpcodeRow.accepts ⟨k, wordNnn 0xF 0, wordNnn c 0⟩ (wordNnn c a) = true := by
  simp [OpcodeRow.accepts, wordNnn_and, nibble_and_all c]

/-- A row of mask F000 accepts every word of its category in format XNN. -/
theorem accepts_xnn (k : Nat) (c : Nibble) (x : Reg) (a : Byte) :
    OpcodeRow.accepts ⟨k, wordXnn 0xF 0 0, wordXnn c 0 0⟩ (wordXnn c x a) = true := by
  simp [OpcodeRow.accepts, wordXnn_and, nibble_and_all c]

/-- A row of mask F000 accepts every word of its category in format XYN. -/
theorem accepts_xyn (k : Nat) (c : Nibble) (x y : Reg) (n : Nibble) :
    OpcodeRow.accepts ⟨k, wordXyn 0xF 0 0 0, wordXyn c 0 0 0⟩ (wordXyn c x y n) = true := by
  simp [OpcodeRow.accepts, wordXyn_and, nibble_and_all c]

/-- A row of mask F00F accepts every word of its category and low nibble. -/
theorem accepts_xy (k : Nat) (c n : Nibble) (x y : Reg) :
    OpcodeRow.accepts ⟨k, wordXyn 0xF 0 0 0xF, wordXyn c 0 0 n⟩ (wordXyn c x y n) = true := by
  simp [OpcodeRow.accepts, wordXyn_and, nibble_and_all c, nibble_and_all n]

/-- A row of mask F0FF accepts every word of its category and low byte. -/
theorem accepts_x (k : Nat) (c : Nibble) (x : Reg) (a : Byte) :
    OpcodeRow.accepts ⟨k, wordXnn 0xF 0 0xFF, wordXnn c 0 a⟩ (wordXnn c x a) = true := by
  simp [OpcodeRow.accepts, wordXnn_and, nibble_and_all c, byte_and_all a]

theorem cls : Statement .cls :=
  of_row ⟨1, 0xFFFF, 0x00E0⟩ (by decide) (by decide)

theorem ret : Statement .ret :=
  of_row ⟨2, 0xFFFF, 0x00EE⟩ (by decide) (by decide)

theorem jp (nnn : Addr12) : Statement (.jp nnn) :=
  of_row ⟨3, 0xF000, 0x1000⟩ (by decide) (accepts_nnn 3 0x1 nnn)

theorem call (nnn : Addr12) : Statement (.call nnn) :=
  of_row ⟨4, 0xF000, 0x2000⟩ (by decide) (accepts_nnn 4 0x2 nnn)

theorem seImm (x : Reg) (nn : Byte) : Statement (.seImm x nn) :=
  of_row ⟨5, 0xF000, 0x3000⟩ (by decide) (accepts_xnn 5 0x3 x nn)

theorem sneImm (x : Reg) (nn : Byte) : Statement (.sneImm x nn) :=
  of_row ⟨6, 0xF000, 0x4000⟩ (by decide) (accepts_xnn 6 0x4 x nn)

theorem seReg (x : Reg) (y : Reg) : Statement (.seReg x y) :=
  of_row ⟨7, 0xF00F, 0x5000⟩ (by decide) (accepts_xy 7 0x5 0x0 x y)

theorem ldImm (x : Reg) (nn : Byte) : Statement (.ldImm x nn) :=
  of_row ⟨8, 0xF000, 0x6000⟩ (by decide) (accepts_xnn 8 0x6 x nn)

theorem addImm (x : Reg) (nn : Byte) : Statement (.addImm x nn) :=
  of_row ⟨9, 0xF000, 0x7000⟩ (by decide) (accepts_xnn 9 0x7 x nn)

theorem ldReg (x : Reg) (y : Reg) : Statement (.ldReg x y) :=
  of_row ⟨10, 0xF00F, 0x8000⟩ (by decide) (accepts_xy 10 0x8 0x0 x y)

theorem orReg (x : Reg) (y : Reg) : Statement (.orReg x y) :=
  of_row ⟨11, 0xF00F, 0x8001⟩ (by decide) (accepts_xy 11 0x8 0x1 x y)

theorem andReg (x : Reg) (y : Reg) : Statement (.andReg x y) :=
  of_row ⟨12, 0xF00F, 0x8002⟩ (by decide) (accepts_xy 12 0x8 0x2 x y)

theorem xorReg (x : Reg) (y : Reg) : Statement (.xorReg x y) :=
  of_row ⟨13, 0xF00F, 0x8003⟩ (by decide) (accepts_xy 13 0x8 0x3 x y)

theorem addReg (x : Reg) (y : Reg) : Statement (.addReg x y) :=
  of_row ⟨14, 0xF00F, 0x8004⟩ (by decide) (accepts_xy 14 0x8 0x4 x y)

theorem subReg (x : Reg) (y : Reg) : Statement (.subReg x y) :=
  of_row ⟨15, 0xF00F, 0x8005⟩ (by decide) (accepts_xy 15 0x8 0x5 x y)

theorem shr (x : Reg) (y : Reg) : Statement (.shr x y) :=
  of_row ⟨16, 0xF00F, 0x8006⟩ (by decide) (accepts_xy 16 0x8 0x6 x y)

theorem subn (x : Reg) (y : Reg) : Statement (.subn x y) :=
  of_row ⟨17, 0xF00F, 0x8007⟩ (by decide) (accepts_xy 17 0x8 0x7 x y)

theorem shl (x : Reg) (y : Reg) : Statement (.shl x y) :=
  of_row ⟨18, 0xF00F, 0x800E⟩ (by decide) (accepts_xy 18 0x8 0xE x y)

theorem sneReg (x : Reg) (y : Reg) : Statement (.sneReg x y) :=
  of_row ⟨19, 0xF00F, 0x9000⟩ (by decide) (accepts_xy 19 0x9 0x0 x y)

theorem ldI (nnn : Addr12) : Statement (.ldI nnn) :=
  of_row ⟨20, 0xF000, 0xA000⟩ (by decide) (accepts_nnn 20 0xA nnn)

theorem jpV0 (nnn : Addr12) : Statement (.jpV0 nnn) :=
  of_row ⟨21, 0xF000, 0xB000⟩ (by decide) (accepts_nnn 21 0xB nnn)

theorem rnd (x : Reg) (nn : Byte) : Statement (.rnd x nn) :=
  of_row ⟨22, 0xF000, 0xC000⟩ (by decide) (accepts_xnn 22 0xC x nn)

theorem drw (x : Reg) (y : Reg) (n : Nibble) : Statement (.drw x y n) :=
  of_row ⟨23, 0xF000, 0xD000⟩ (by decide) (accepts_xyn 23 0xD x y n)

theorem skp (x : Reg) : Statement (.skp x) :=
  of_row ⟨24, 0xF0FF, 0xE09E⟩ (by decide) (accepts_x 24 0xE x 0x9E)

theorem sknp (x : Reg) : Statement (.sknp x) :=
  of_row ⟨25, 0xF0FF, 0xE0A1⟩ (by decide) (accepts_x 25 0xE x 0xA1)

theorem ldFromDt (x : Reg) : Statement (.ldFromDt x) :=
  of_row ⟨26, 0xF0FF, 0xF007⟩ (by decide) (accepts_x 26 0xF x 0x07)

theorem ldKey (x : Reg) : Statement (.ldKey x) :=
  of_row ⟨27, 0xF0FF, 0xF00A⟩ (by decide) (accepts_x 27 0xF x 0x0A)

theorem ldDt (x : Reg) : Statement (.ldDt x) :=
  of_row ⟨28, 0xF0FF, 0xF015⟩ (by decide) (accepts_x 28 0xF x 0x15)

theorem ldSt (x : Reg) : Statement (.ldSt x) :=
  of_row ⟨29, 0xF0FF, 0xF018⟩ (by decide) (accepts_x 29 0xF x 0x18)

theorem addI (x : Reg) : Statement (.addI x) :=
  of_row ⟨30, 0xF0FF, 0xF01E⟩ (by decide) (accepts_x 30 0xF x 0x1E)

theorem ldFont (x : Reg) : Statement (.ldFont x) :=
  of_row ⟨31, 0xF0FF, 0xF029⟩ (by decide) (accepts_x 31 0xF x 0x29)

theorem ldBcd (x : Reg) : Statement (.ldBcd x) :=
  of_row ⟨32, 0xF0FF, 0xF033⟩ (by decide) (accepts_x 32 0xF x 0x33)

theorem storeRegs (x : Reg) : Statement (.storeRegs x) :=
  of_row ⟨33, 0xF0FF, 0xF055⟩ (by decide) (accepts_x 33 0xF x 0x55)

theorem loadRegs (x : Reg) : Statement (.loadRegs x) :=
  of_row ⟨34, 0xF0FF, 0xF065⟩ (by decide) (accepts_x 34 0xF x 0x65)

end Sys2Proof.Laws.WellFormedWord
end

