-- ==== Sys2Proof/Laws/Reset.lean ====
section
/-! SUPPORT. The font table, and what memory holds after a reset. -/

namespace Sys2Proof.Machine

@[simp] theorem FontTable.bytes_length (font : FontTable) : font.bytes.length = 80 := by
  simp [FontTable.bytes, glyphZero]

/-- The default font is what unlisted memory reads as. -/
theorem defaultFont_bytes : defaultFont.bytes = glyphZero ++ defaultGlyphs := rfl

theorem resetByte_of_ge {a : Nat} (h : 80 ≤ a) : resetByte a = 0 := by
  have hl : (glyphZero ++ defaultGlyphs).length ≤ a := h
  unfold resetByte
  rw [List.getD_eq_default _ _ hl]

/-- Reset succeeds exactly for an image that fits (70_reset_and_hazards R201). -/
theorem State.resetWith_ok {font : FontTable} {image : List Byte} {s : State} :
    State.resetWith font image = .ok s ↔
      image.length ≤ 3584 ∧ s = { State.reset with mem := resetMemory font image } := by
  unfold State.resetWith wellFormedImage
  by_cases h : image.length ≤ Config.progMax
  · have h' : image.length ≤ 3584 := h
    simp [h, eq_comm]
  · have h' : ¬ image.length ≤ 3584 := h
    simp [h]

/-- Every byte of memory after reset (10_state R25). -/
theorem resetMemory_read (font : FontTable) {image : List Byte} (h : image.length ≤ 3584) (a : Nat) :
    (resetMemory font image).read a =
      if 0x200 ≤ a ∧ a < 0x200 + image.length then image.getD (a - 0x200) 0
      else if a < 80 then font.bytes.getD a 0 else 0 := by
  have hi : Config.progBase + image.length ≤ Config.memSize := by
    unfold Config.progBase Config.memSize
    omega
  have hf : Config.fontBase + font.bytes.length ≤ Config.memSize := by
    rw [FontTable.bytes_length]
    decide
  unfold resetMemory
  rw [Memory.read_writeBytes _ _ _ hi, Memory.read_writeBytes _ _ _ hf, FontTable.bytes_length]
  refine if_congr Iff.rfl rfl ?_
  by_cases ha : a < 80
  · rw [if_pos ⟨Nat.zero_le a, by simpa using ha⟩, if_pos ha]
    rfl
  · rw [if_neg (by simpa using ha), if_neg ha]
    exact resetByte_of_ge (Nat.le_of_not_lt ha)

/-- Memory after reset is in canonical form. -/
theorem resetMemory_wf (font : FontTable) (image : List Byte) : (resetMemory font image).wf = true :=
  Memory.wf_writeBytes (Memory.wf_writeBytes rfl _ _) _ _

/-- With the default font and no image nothing is listed: that memory is the one of `State.reset`. -/
theorem resetMemory_default : resetMemory defaultFont [] = [] := by decide +kernel

end Sys2Proof.Machine
end

