-- ==== Sys2Proof/Laws/Step.lean ====
section
/-! SUPPORT. What a step can do, said once. -/

namespace Sys2Proof.Machine

variable {s t : State}

/-- The fetch gives the two bytes at `pc`, or faults at `pc >= 4095` (40_step_cycle R81). -/
theorem State.fetch_ok {op : Word} :
    s.fetch = .ok op ↔ s.pc.toNat ≤ 4094 ∧
      op = joinBytes (s.mem.read s.pc.toNat) (s.mem.read (s.pc.toNat + 1)) := by
  unfold State.fetch Config.memSize
  by_cases h : s.pc.toNat + 1 ≥ 4096
  · rw [if_pos h]
    simp only [reduceCtorEq, false_iff, not_and]
    intro h'
    omega
  · rw [if_neg h]
    simp only [Except.ok.injEq]
    constructor
    · rintro rfl
      exact ⟨by omega, rfl⟩
    · exact fun h => h.2.symm

theorem afterExec_next {r : Result} : afterExec r = .next t ↔ ∃ u, r = .next u ∧ t = u.tick := by
  cases r <;> simp [afterExec, raise, eq_comm]

/-- A step that completes fetched a word, decoded it, ran it on the state with its transient flags
cleared, and ticked the timers (40_step_cycle R80). -/
theorem step_next : step s = .next t ↔ s.pc.toNat ≤ 4094 ∧
    ∃ i, decode (joinBytes (s.mem.read s.pc.toNat) (s.mem.read (s.pc.toNat + 1))) = some i ∧
      ∃ u, exec i s.clearFlags = .next u ∧ t = u.tick := by
  unfold step cycleWith
  cases hf : s.fetch with
  | error f =>
    have : ¬ s.pc.toNat ≤ 4094 := fun h => by
      rw [State.fetch_ok.mpr ⟨h, rfl⟩] at hf
      cases hf
    simp [raise, this]
  | ok op =>
    obtain ⟨hp, rfl⟩ := State.fetch_ok.mp hf
    cases hd : decode (joinBytes (s.mem.read s.pc.toNat) (s.mem.read (s.pc.toNat + 1))) with
    | none => simp [raise, hd]
    | some i => simp [hp, hd, afterExec_next]

end Sys2Proof.Machine
end

