-- ==== Sys2Proof/Tests/Slice0.lean ====
section
/-! SUPPORT. The model's own tests. Every expected value is the spec's: the words are written from
30_encoding R62 and R64, the results are vectors of 95_test_vectors (named in each comment). The last
part holds one witness for each obligation that has hypotheses. -/

namespace Sys2Proof.Tests

open Sys2Proof Sys2Proof.Machine

/-! ### Helpers -/

/-- The result is a next state that satisfies `p`. -/
def ends (r : Result) (p : State → Bool) : Bool :=
  match r with
  | .next t => p t
  | _ => false

/-- The result is the fault `f`. -/
def stops (r : Result) (f : Fault) : Bool :=
  match r with
  | .fault g => g == f
  | _ => false

theorem ends_iff {r : Result} {p : State → Bool} :
    ends r p = true ↔ ∃ t, r = .next t ∧ p t = true := by
  cases r <;> simp [ends]

theorem stops_iff {r : Result} {f : Fault} : stops r f = true ↔ r = .fault f := by
  cases r <;> simp [stops]

/-- The reset state with one word at 0x200 and some registers set (95_test_vectors, notation). -/
def start (op : Nat) (vs : List (Reg × Byte)) : State :=
  vs.foldl (fun s p => s.setV p.1 p.2) (State.reset.withFetchWord 16 op)

/-- `s` with bytes written to memory from address `a`. -/
def withBytes (s : State) (a : Nat) (ws : List Byte) : State := { s with mem := s.mem.writeBytes a ws }

/-- `s` with some keys pressed. -/
def withKeys (s : State) (ks : List (BitVec 4)) : State := ks.foldl (fun s k => s.driveKey k true) s

/-- `s` with some pixels on. -/
def withPixels (s : State) (js : List Nat) : State := js.foldl State.togglePixel s

/-- Exactly the pixels `js` are on. -/
def lit (s : State) (js : List Nat) : Bool := s.fb == (withPixels State.reset js).fb

/-! ### Decoding and encoding: one word per constructor, bit by bit (30_encoding R62, R64) -/

theorem test_decode_cls :
    decode 0b0000_0000_1110_0000 = some (.cls) ∧ encode (.cls) = 0x00E0 := by decide
theorem test_decode_ret :
    decode 0b0000_0000_1110_1110 = some (.ret) ∧ encode (.ret) = 0x00EE := by decide
theorem test_decode_jp :
    decode 0b0001_1010_1011_1100 = some (.jp 0xABC) ∧ encode (.jp 0xABC) = 0x1ABC := by decide
theorem test_decode_call :
    decode 0b0010_1101_1110_1111 = some (.call 0xDEF) ∧ encode (.call 0xDEF) = 0x2DEF := by decide
theorem test_decode_seImm :
    decode 0b0011_1010_0100_0010 = some (.seImm 0xA 0x42) ∧ encode (.seImm 0xA 0x42) = 0x3A42 := by decide
theorem test_decode_sneImm :
    decode 0b0100_1011_1000_0001 = some (.sneImm 0xB 0x81) ∧ encode (.sneImm 0xB 0x81) = 0x4B81 := by decide
theorem test_decode_seReg :
    decode 0b0101_1010_1011_0000 = some (.seReg 0xA 0xB) ∧ encode (.seReg 0xA 0xB) = 0x5AB0 := by decide
theorem test_decode_ldImm :
    decode 0b0110_1010_0111_1111 = some (.ldImm 0xA 0x7F) ∧ encode (.ldImm 0xA 0x7F) = 0x6A7F := by decide
theorem test_decode_addImm :
    decode 0b0111_1100_0000_0001 = some (.addImm 0xC 0x01) ∧ encode (.addImm 0xC 0x01) = 0x7C01 := by decide
theorem test_decode_ldReg :
    decode 0b1000_1010_1011_0000 = some (.ldReg 0xA 0xB) ∧ encode (.ldReg 0xA 0xB) = 0x8AB0 := by decide
theorem test_decode_orReg :
    decode 0b1000_1010_1011_0001 = some (.orReg 0xA 0xB) ∧ encode (.orReg 0xA 0xB) = 0x8AB1 := by decide
theorem test_decode_andReg :
    decode 0b1000_1010_1011_0010 = some (.andReg 0xA 0xB) ∧ encode (.andReg 0xA 0xB) = 0x8AB2 := by decide
theorem test_decode_xorReg :
    decode 0b1000_1010_1011_0011 = some (.xorReg 0xA 0xB) ∧ encode (.xorReg 0xA 0xB) = 0x8AB3 := by decide
theorem test_decode_addReg :
    decode 0b1000_1010_1011_0100 = some (.addReg 0xA 0xB) ∧ encode (.addReg 0xA 0xB) = 0x8AB4 := by decide
theorem test_decode_subReg :
    decode 0b1000_1010_1011_0101 = some (.subReg 0xA 0xB) ∧ encode (.subReg 0xA 0xB) = 0x8AB5 := by decide
theorem test_decode_shr :
    decode 0b1000_1010_1011_0110 = some (.shr 0xA 0xB) ∧ encode (.shr 0xA 0xB) = 0x8AB6 := by decide
theorem test_decode_subn :
    decode 0b1000_1010_1011_0111 = some (.subn 0xA 0xB) ∧ encode (.subn 0xA 0xB) = 0x8AB7 := by decide
theorem test_decode_shl :
    decode 0b1000_1010_1011_1110 = some (.shl 0xA 0xB) ∧ encode (.shl 0xA 0xB) = 0x8ABE := by decide
theorem test_decode_sneReg :
    decode 0b1001_1010_1011_0000 = some (.sneReg 0xA 0xB) ∧ encode (.sneReg 0xA 0xB) = 0x9AB0 := by decide
theorem test_decode_ldI :
    decode 0b1010_0001_0010_0011 = some (.ldI 0x123) ∧ encode (.ldI 0x123) = 0xA123 := by decide
theorem test_decode_jpV0 :
    decode 0b1011_1111_1110_1101 = some (.jpV0 0xFED) ∧ encode (.jpV0 0xFED) = 0xBFED := by decide
theorem test_decode_rnd :
    decode 0b1100_0001_1111_0000 = some (.rnd 0x1 0xF0) ∧ encode (.rnd 0x1 0xF0) = 0xC1F0 := by decide
theorem test_decode_drw :
    decode 0b1101_0001_0010_0101 = some (.drw 0x1 0x2 0x5) ∧ encode (.drw 0x1 0x2 0x5) = 0xD125 := by decide
theorem test_decode_skp :
    decode 0b1110_1010_1001_1110 = some (.skp 0xA) ∧ encode (.skp 0xA) = 0xEA9E := by decide
theorem test_decode_sknp :
    decode 0b1110_0011_1010_0001 = some (.sknp 0x3) ∧ encode (.sknp 0x3) = 0xE3A1 := by decide
theorem test_decode_ldFromDt :
    decode 0b1111_0100_0000_0111 = some (.ldFromDt 0x4) ∧ encode (.ldFromDt 0x4) = 0xF407 := by decide
theorem test_decode_ldKey :
    decode 0b1111_0101_0000_1010 = some (.ldKey 0x5) ∧ encode (.ldKey 0x5) = 0xF50A := by decide
theorem test_decode_ldDt :
    decode 0b1111_0110_0001_0101 = some (.ldDt 0x6) ∧ encode (.ldDt 0x6) = 0xF615 := by decide
theorem test_decode_ldSt :
    decode 0b1111_0111_0001_1000 = some (.ldSt 0x7) ∧ encode (.ldSt 0x7) = 0xF718 := by decide
theorem test_decode_addI :
    decode 0b1111_1000_0001_1110 = some (.addI 0x8) ∧ encode (.addI 0x8) = 0xF81E := by decide
theorem test_decode_ldFont :
    decode 0b1111_1001_0010_1001 = some (.ldFont 0x9) ∧ encode (.ldFont 0x9) = 0xF929 := by decide
theorem test_decode_ldBcd :
    decode 0b1111_1010_0011_0011 = some (.ldBcd 0xA) ∧ encode (.ldBcd 0xA) = 0xFA33 := by decide
theorem test_decode_storeRegs :
    decode 0b1111_1011_0101_0101 = some (.storeRegs 0xB) ∧ encode (.storeRegs 0xB) = 0xFB55 := by decide
theorem test_decode_loadRegs :
    decode 0b1111_1100_0110_0101 = some (.loadRegs 0xC) ∧ encode (.loadRegs 0xC) = 0xFC65 := by decide

/-- The words 95_test_vectors V-DEC lists as unrecognized. -/
theorem test_decode_unrecognized :
    (([0x0000, 0x00E1, 0x01E0, 0x0FEE, 0x5AB1, 0x9ABF, 0x8AB8, 0x8ABF, 0xEA9F, 0xEA00, 0xFA00, 0xFA1F,
      0xFA75, 0xFFFF] : List Word).all fun op => decode op == none) = true := by decide

/-- The opcode table numbers a word's bits as the model does: the first byte in memory is the high
one (30_encoding R60). -/
theorem test_decodeTableWord : decodeTableWord 16 0x8AB4 = some (.addReg 0xA 0xB) ∧
    decodeTableWord 16 0x5AB1 = none ∧ encodeBytes (.ldI 0x2F0) = [0xA2, 0xF0] := by decide

/-! ### Well-formedness, one ill-formed term for each check -/

theorem test_wellFormed_word : wellFormedWord 0x8AB6 = true ∧ wellFormedWord 0x0000 = false ∧
    wellFormedWord 0x01E0 = false ∧ wellFormedWord 0x5AB1 = false ∧ wellFormedWord 0x8AB8 = false ∧
    wellFormedWord 0x9ABF = false ∧ wellFormedWord 0xEA9F = false ∧ wellFormedWord 0xFA00 = false := by
  decide

/-- V-RST: an image of 3584 bytes is accepted, one of 3585 is not (70_reset_and_hazards R201). -/
theorem test_wellFormed_image : wellFormedImage (List.replicate 3584 1) = true ∧
    wellFormedImage (List.replicate 3585 1) = false := by
  simp only [wellFormedImage, List.length_replicate]
  decide

/-- Memory's canonical form refuses addresses out of order, a repeated address, an address that does
not exist, and a cell at its reset contents (0 at 0x300, a font byte at 0x000). -/
theorem test_memory_wf : Memory.wf [(0x300, 1), (0x301, 2)] = true ∧
    Memory.wf [(0x301, 1), (0x300, 2)] = false ∧ Memory.wf [(0x300, 1), (0x300, 2)] = false ∧
    Memory.wf [(4096, 1)] = false ∧ Memory.wf [(0x300, 0)] = false ∧ Memory.wf [(0x000, 0xF0)] = false := by
  decide

/-- A write of the reset contents leaves no cell (10_state R25). -/
theorem test_memory_erase : Memory.write (Memory.write [] 0x300 7) 0x300 0 = [] ∧
    (Memory.write [] 0x000 9).read 0 = 9 ∧ (Memory.write (Memory.write [] 0 9) 0 0xF0) = [] := by
  decide

/-! ### Single steps (95_test_vectors; the vector is named before each) -/

/-- S2. -/
theorem test_cls :
    ends (step (withPixels (start 0x00E0 []) [0, 100, 2047])) (fun t =>
      lit t [] && t.redrawPending && t.pc == 0x202) = true := by decide

/-- V-CF: 00EE at sp = 0. -/
theorem test_ret_underflow :
    stops (step (start 0x00EE [])) (.stackUnderflow) = true := by decide

/-- V-CF: 00EE, sp = 1, stack[1] = 0x204. -/
theorem test_ret :
    ends (step (((start 0x00EE []).setSp 1).setSlot 1 0x204)) (fun t =>
      t.pc == 0x206 && t.sp == 0 && t.getSlot 1 == 0x204) = true := by decide

/-- V-CF. -/
theorem test_jp :
    ends (step (start 0x1ABC [])) (fun t =>
      t.pc == 0xABC && t.sp == 0) = true := by decide

/-- V-CF: 2ABC at sp = 14. -/
theorem test_call_deepest :
    ends (step ((start 0x2ABC []).setSp 14)) (fun t =>
      t.sp == 15 && t.getSlot 15 == 0x200 && t.pc == 0xABC) = true := by decide

/-- V-CF: 2ABC at sp = 15. -/
theorem test_call_overflow :
    stops (step ((start 0x2ABC []).setSp 15)) (.stackOverflow) = true := by decide

/-- S4. -/
theorem test_seImm_holds :
    ends (step (start 0x3A42 [(0xA, 0x42)])) (fun t =>
      t.pc == 0x204) = true := by decide

/-- S4. -/
theorem test_seImm_fails :
    ends (step (start 0x3A42 [(0xA, 0x43)])) (fun t =>
      t.pc == 0x202) = true := by decide

/-- S4. -/
theorem test_sneImm_holds :
    ends (step (start 0x4A42 [(0xA, 0x43)])) (fun t =>
      t.pc == 0x204) = true := by decide

/-- S4. -/
theorem test_sneImm_fails :
    ends (step (start 0x4A42 [(0xA, 0x42)])) (fun t =>
      t.pc == 0x202) = true := by decide

/-- S4. -/
theorem test_seReg_holds :
    ends (step (start 0x5AB0 [(0xA, 7), (0xB, 7)])) (fun t =>
      t.pc == 0x204) = true := by decide

/-- S4. -/
theorem test_seReg_fails :
    ends (step (start 0x5AB0 [(0xA, 7), (0xB, 8)])) (fun t =>
      t.pc == 0x202) = true := by decide

/-- S4. -/
theorem test_sneReg_holds :
    ends (step (start 0x9AB0 [(0xA, 7), (0xB, 8)])) (fun t =>
      t.pc == 0x204) = true := by decide

/-- V-CF: 9AA0 never skips. -/
theorem test_sneReg_same :
    ends (step (start 0x9AA0 [(0xA, 9)])) (fun t =>
      t.pc == 0x202) = true := by decide

/-- V-CF: no reduction to 12 bits. -/
theorem test_jpV0 :
    ends (step (start 0xBFFF [(0x0, 0xFF)])) (fun t =>
      t.pc == 0x10FE) = true := by decide

/-- V-ALU: VF is an ordinary register. -/
theorem test_ldImm_vf :
    ends (step (start 0x6FFF [])) (fun t =>
      t.getV 0xF == 0xFF && t.pc == 0x202) = true := by decide

/-- S1: 7xnn writes no flag. -/
theorem test_addImm_wraps :
    ends (step (start 0x7A01 [(0xA, 0xFF), (0xF, 7)])) (fun t =>
      t.getV 0xA == 0 && t.getV 0xF == 7) = true := by decide

/-- V-ALU. -/
theorem test_ldReg :
    ends (step (start 0x8AB0 [(0xA, 1), (0xB, 0x99)])) (fun t =>
      t.getV 0xA == 0x99 && t.getV 0xB == 0x99) = true := by decide

/-- V-ALU: no flag. -/
theorem test_orReg :
    ends (step (start 0x8AB1 [(0xA, 0xF0), (0xB, 0x0F), (0xF, 9)])) (fun t =>
      t.getV 0xA == 0xFF && t.getV 0xF == 9) = true := by decide

/-- V-ALU: no flag. -/
theorem test_andReg :
    ends (step (start 0x8AB2 [(0xA, 0xF0), (0xB, 0x3C), (0xF, 9)])) (fun t =>
      t.getV 0xA == 0x30 && t.getV 0xF == 9) = true := by decide

/-- V-ALU: no flag. -/
theorem test_xorReg :
    ends (step (start 0x8AB3 [(0xA, 0xF0), (0xB, 0x3C), (0xF, 9)])) (fun t =>
      t.getV 0xA == 0xCC && t.getV 0xF == 9) = true := by decide

/-- V-ALU: a sum of exactly 255 has no carry. -/
theorem test_addReg_255 :
    ends (step (start 0x8AB4 [(0xA, 200), (0xB, 55), (0xF, 1)])) (fun t =>
      t.getV 0xA == 255 && t.getV 0xF == 0) = true := by decide

/-- V-ALU, VF as an operand: 8FF4, VF = 200. -/
theorem test_addReg_vf :
    ends (step (start 0x8FF4 [(0xF, 200)])) (fun t =>
      t.getV 0xF == 2) = true := by decide

/-- V-ALU: equal operands give flag 0. -/
theorem test_subReg_equal :
    ends (step (start 0x8AB5 [(0xA, 7), (0xB, 7), (0xF, 1)])) (fun t =>
      t.getV 0xA == 0 && t.getV 0xF == 0) = true := by decide

/-- V-ALU, VF as an operand: 8F25, VF = 10, V2 = 3. -/
theorem test_subReg_vf :
    ends (step (start 0x8F25 [(0xF, 10), (0x2, 3)])) (fun t =>
      t.getV 0xF == 254) = true := by decide

/-- S1: y is ignored. -/
theorem test_shr :
    ends (step (start 0x8AB6 [(0xA, 0x05), (0xB, 0xFF)])) (fun t =>
      t.getV 0xA == 2 && t.getV 0xF == 1 && t.getV 0xB == 0xFF) = true := by decide

/-- V-ALU, VF as an operand: SHR VF ends with VF = 0. -/
theorem test_shr_vf :
    ends (step (start 0x8F26 [(0xF, 3)])) (fun t =>
      t.getV 0xF == 0) = true := by decide

/-- S1. -/
theorem test_subn :
    ends (step (start 0x8AB7 [(0xA, 3), (0xB, 10)])) (fun t =>
      t.getV 0xA == 7 && t.getV 0xF == 1) = true := by decide

/-- V-ALU, VF as an operand: 81F7, V1 = 3, VF = 10. -/
theorem test_subn_vf :
    ends (step (start 0x81F7 [(0x1, 3), (0xF, 10)])) (fun t =>
      t.getV 0x1 == 254 && t.getV 0xF == 1) = true := by decide

/-- S1: y is ignored. -/
theorem test_shl :
    ends (step (start 0x8ABE [(0xA, 0x81), (0xB, 0xFF)])) (fun t =>
      t.getV 0xA == 2 && t.getV 0xF == 1 && t.getV 0xB == 0xFF) = true := by decide

/-- V-ALU, VF as an operand: 8FFE, VF = 0x80. -/
theorem test_shl_vf :
    ends (step (start 0x8FFE [(0xF, 0x80)])) (fun t =>
      t.getV 0xF == 2) = true := by decide

/-- V-IDX. -/
theorem test_ldI :
    ends (step (start 0xAFFF [])) (fun t =>
      t.i == 0xFFF) = true := by decide

/-- V-IDX: 16 bits, VF not written. -/
theorem test_addI_12 :
    ends (step ((start 0xFA1E [(0xA, 1), (0xF, 5)]).setI 0xFFF)) (fun t =>
      t.i == 0x1000 && t.getV 0xF == 5) = true := by decide

/-- V-IDX. -/
theorem test_addI_wraps :
    ends (step ((start 0xFA1E [(0xA, 2)]).setI 0xFFFF)) (fun t =>
      t.i == 1) = true := by decide

/-- V-IDX: no mask. -/
theorem test_ldFont :
    ends (step (start 0xFA29 [(0xA, 0xFF)])) (fun t =>
      t.i == 0x4FB) = true := by decide

/-- S6. -/
theorem test_ldBcd :
    ends (step ((start 0xFA33 [(0xA, 157)]).setI 0x300)) (fun t =>
      (List.range 3).map (fun k => t.mem.read (0x300 + k)) == [1, 5, 7]) = true := by decide

/-- V-IDX: the last legal I is 0xFFD. -/
theorem test_ldBcd_bounds :
    stops (step ((start 0xFA33 [(0xA, 255)]).setI 0xFFE)) (.outOfBounds .data 0x1000) = true := by decide

/-- V-IDX: V3 is not stored, I stays. -/
theorem test_storeRegs :
    ends (step ((start 0xF255 [(0x0, 0x11), (0x1, 0x22), (0x2, 0x33), (0x3, 0x44)]).setI 0x300)) (fun t =>
      (List.range 4).map (fun k => t.mem.read (0x300 + k)) == [0x11, 0x22, 0x33, 0] && t.i == 0x300) = true := by decide

/-- V-IDX: no partial store. -/
theorem test_storeRegs_bounds :
    stops (step ((start 0xF155 [(0x0, 0xAB)]).setI 0xFFF)) (.outOfBounds .data 0x1000) = true := by decide

/-- V-IDX: the font's glyph 0. -/
theorem test_loadRegs :
    ends (step (start 0xF165 [])) (fun t =>
      t.getV 0 == 0xF0 && t.getV 1 == 0x90 && t.getV 2 == 0) = true := by decide

/-- V-IDX. -/
theorem test_loadRegs_bounds :
    stops (step ((start 0xF065 []).setI 0xFFFF)) (.outOfBounds .data 0xFFFF) = true := by decide

/-- S7, first draw. -/
theorem test_drw_glyph :
    ends (step (start 0xD015 [])) (fun t =>
      lit t [0, 1, 2, 3, 64, 67, 128, 131, 192, 195, 256, 257, 258, 259] && t.getV 0xF == 0 &&
      t.redrawPending && t.pc == 0x202) = true := by decide +kernel

/-- V-GFX: 0xFF drawn over pixels 3 and 9. -/
theorem test_drw_collision :
    ends (step (withPixels (withBytes ((start 0xD011 []).setI 0x300) 0x300 [0xFF]) [3, 9])) (fun t =>
      lit t [0, 1, 2, 4, 5, 6, 7, 9] && t.getV 0xF == 1) = true := by decide

/-- S4: key 5. -/
theorem test_skp :
    ends (step (withKeys (start 0xEA9E [(0xA, 5)]) [5])) (fun t =>
      t.pc == 0x204) = true := by decide

/-- V-KT. -/
theorem test_skp_bounds :
    stops (step (start 0xEA9E [(0xA, 16)])) (.outOfBounds .keypad 16) = true := by decide

/-- S4: key 5 pressed. -/
theorem test_sknp :
    ends (step (withKeys (start 0xEAA1 [(0xA, 5)]) [5])) (fun t =>
      t.pc == 0x202) = true := by decide

/-- V-KT. -/
theorem test_sknp_bounds :
    stops (step (start 0xEAA1 [(0xA, 0xFF)])) (.outOfBounds .keypad 255) = true := by decide

/-- V-KT: read before the tick. -/
theorem test_ldFromDt :
    ends (step ((start 0xFA07 []).setDt 9)) (fun t =>
      t.getV 0xA == 9 && t.dt == 8) = true := by decide

/-- V-KT: written 3, ticked in the same step. -/
theorem test_ldDt :
    ends (step (start 0xFA15 [(0xA, 3)])) (fun t =>
      t.dt == 2 && !t.soundPending) = true := by decide

/-- V-KT. -/
theorem test_ldSt :
    ends (step (start 0xFA18 [(0xA, 1)])) (fun t =>
      t.st == 0 && t.soundPending) = true := by decide

/-- V-KT: the timers tick while pc stays. -/
theorem test_ldKey_waits :
    ends (step (((start 0xFA0A []).setDt 5).setSt 1)) (fun t =>
      t.pc == 0x200 && t.getV 0xA == 0 && t.dt == 4 && t.st == 0 && t.soundPending) = true := by decide

/-- V-KT. -/
theorem test_ldKey_one :
    ends (step (withKeys (start 0xFA0A []) [3])) (fun t =>
      t.getV 0xA == 3 && t.pc == 0x202) = true := by decide

/-- S8: mask 0 gives 0 whatever the draw. -/
theorem test_rnd_mask_zero :
    ∃ t, exec (.rnd 0xA 0x00) (start 0xCA00 [(0xA, 0x55)]) = .next t ∧ t.getV 0xA = 0 :=
  ⟨_, rfl, by simp⟩

/-! ### Faults, their order, and the fetch (95_test_vectors V-FETCH, V-PRI, V-GFX, S9) -/

/-- V-FETCH: pc = 4095. -/
theorem test_fetch_last :
    stops (step (State.reset.setPc 0xFFF)) (.outOfBounds .fetch 0xFFF) = true := by decide

/-- V-FETCH: pc + 1 is not wrapped. -/
theorem test_fetch_no_wrap :
    stops (step (State.reset.setPc 0xFFFF)) (.outOfBounds .fetch 0xFFFF) = true := by decide

/-- V-FETCH: the last address that executes. -/
theorem test_fetch_4094 :
    ends (step (withBytes (State.reset.setPc 0xFFE) 0xFFE [0x6A, 0x01])) (fun t =>
      t.getV 0xA == 1 && t.pc == 0x1000) = true := by decide

/-- V-FETCH: an odd pc below 0x200. -/
theorem test_fetch_odd :
    ends (step (withBytes (State.reset.setPc 1) 1 [0x6A, 0x01])) (fun t =>
      t.getV 0xA == 1 && t.pc == 3) = true := by decide

/-- S9. -/
theorem test_unknown :
    stops (step (start 0xFFFF [(0xA, 1)])) (.unknownOpcode 0xFFFF) = true := by decide

/-- V-PRI: the memory check comes first; then the first offending bit in scan order, r = 0, c = 2. -/
theorem test_fault_priority :
    (stops (step ((start 0xD012 [(0x1, 255)]).setI 0xFFF)) (.outOfBounds .data 0x1000) &&
      stops (step (start 0xD125 [(0x1, 62), (0x2, 31)])) (.outOfBounds .framebuffer 2048)) = true := by decide

/-- V-RST: reset with the image `12 00`. -/
theorem test_reset_image :
    (match State.resetWith defaultFont [0x12, 0x00] with
      | .ok s => s.mem == [(0x200, 0x12)] && s.pc == 0x200 && lit s []
      | .error _ => false) = true := by decide +kernel

/-- Another font table than the default is what memory then holds, glyph 0 apart; only the bytes in
which it differs are listed (10_state R26: glyph 1 is 20 60 20 20 70 by default). -/
theorem test_reset_font :
    (match State.resetWith ⟨defaultFont.glyphs.set 0 0x30⟩ [] with
      | .ok s => s.mem == [(5, 0x30)] && s.mem.read 4 == 0xF0 && s.mem.read 6 == 0x60
      | .error _ => false) = true := by decide +kernel

/-- A word placed at pc by withFetchWord is run by the next step at reset: nine words. -/
theorem test_withFetchWord :
    (([0x00E0, 0x1ABC, 0x2ABC, 0x3A42, 0x5AB0, 0x8AB7, 0xA123, 0xD125, 0xF265] : List Nat).all fun w =>
      ends (step (State.reset.withFetchWord 16 w)) fun _ => true) = true := by decide

/-! ### Witnesses: for each obligation with hypotheses, operands and a state that meet them -/


/-- Executes, as a test. -/
def executes (s : State) (i : Instr) : Bool := decide (s.pc.toNat ≤ 4094) && decode s.wordAtPc == some i

theorem executes_iff {s : State} {i : Instr} : executes s i = true ↔ Executes s i := by
  simp [executes, Executes]

/-- EncodeOfDecode. -/
theorem test_witness_encode_of_decode : decode 0x8AB6 = some (.shr 0xA 0xB) := by decide

/-- StepRunsDecodedInstruction, TimerTransfers, KeyWaitRepeats: a word of each at pc, and one at the
last address that executes. -/
theorem test_witness_executes :
    Executes (start 0x6A01 []) (.ldImm 0xA 1) ∧
      Executes (withBytes (State.reset.setPc 0xFFE) 0xFFE [0x00, 0xEE]) .ret ∧
      Executes (start 0xFA07 []) (.ldFromDt 0xA) ∧ Executes (start 0xFA15 []) (.ldDt 0xA) ∧
      Executes (start 0xFA18 []) (.ldSt 0xA) ∧
      Executes (start 0xFA0A []) (.ldKey 0xA) ∧ ∀ k, (start 0xFA0A []).key k = false := by
  refine ⟨?_, ?_, ?_, ?_, ?_, ?_, ?_⟩
  iterate 6 exact executes_iff.mp (by decide)
  decide

/-- StepFaultsInOrder: each clause, at its boundary (pc 4095, and pc 4094 with each later fault). -/
theorem test_witness_step_faults :
    step (State.reset.setPc 0xFFF) = .fault (.outOfBounds .fetch 0xFFF) ∧
      step (State.reset.setPc 0xFFE) = .fault (.unknownOpcode 0) ∧
      step (withBytes (State.reset.setPc 0xFFE) 0xFFE [0x00, 0xEE]) = .fault .stackUnderflow :=
  ⟨stops_iff.mp (by decide), stops_iff.mp (by decide), stops_iff.mp (by decide)⟩

/-- FaultingStepChangesNothing, and TransientFlagsAfterStep on faulting steps: a step that faults from a
state with both flags set. -/
theorem test_witness_faulting_step :
    step (((start 0xFFFF []).setRedraw true).setSound true) = .fault (.unknownOpcode 0xFFFF) :=
  stops_iff.mp (by decide)

/-- CompletesExactlyWhenItFits, FaultsExactlyAsTabled: operands on both sides of every bound (sp 0, 1,
14, 15; key 15, 16; address 4095, 4096; pixel 2047, 2048). -/
theorem test_witness_bounds :
    (ends (exec .ret (State.reset.setSp 1)) (fun _ => true) && stops (exec .ret State.reset) .stackUnderflow &&
      ends (exec (.call 0) (State.reset.setSp 14)) (fun _ => true) &&
      stops (exec (.call 0) (State.reset.setSp 15)) .stackOverflow &&
      ends (exec (.skp 0) (State.reset.setV 0 15)) (fun _ => true) &&
      stops (exec (.skp 0) (State.reset.setV 0 16)) (.outOfBounds .keypad 16)) = true ∧
    (ends (exec (.ldBcd 0) (State.reset.setI 0xFFD)) (fun _ => true) &&
      stops (exec (.ldBcd 0) (State.reset.setI 0xFFE)) (.outOfBounds .data 4096) &&
      ends (exec (.storeRegs 0xF) (State.reset.setI 0xFF0)) (fun _ => true) &&
      stops (exec (.storeRegs 0xF) (State.reset.setI 0xFF1)) (.outOfBounds .data 4096) &&
      ends (exec (.loadRegs 0xF) (State.reset.setI 0xFF0)) (fun _ => true) &&
      stops (exec (.loadRegs 0xF) (State.reset.setI 0xFF1)) (.outOfBounds .data 4096)) = true ∧
    (ends (exec (.drw 1 2 1) ((State.reset.setV 1 60).setV 2 31)) (fun t => t.pixel 2047) &&
      stops (exec (.drw 1 2 1) ((State.reset.setV 1 61).setV 2 31)) (.outOfBounds .framebuffer 2048) &&
      ends (exec (.drw 1 2 1) (State.reset.setI 0xFFF)) (fun _ => true) &&
      stops (exec (.drw 1 2 2) (State.reset.setI 0xFFF)) (.outOfBounds .data 4096)) = true := by
  refine ⟨?_, ?_, ?_⟩ <;> decide

/-- FaultsIgnoreTransientFlags. -/
theorem test_witness_fault_with_flags :
    exec .ret (State.reset.setRedraw true) = .fault .stackUnderflow := stops_iff.mp (by decide)

/-- DelayTimerAfterStep, TransientFlagsAfterStep, StepWritesOnlyListedElements: a step that completes,
for each instruction their case split names and for one it does not. -/
theorem test_witness_step_completes :
    (Executes (start 0xFA15 [(0xA, 3)]) (.ldDt 0xA) ∧
      ∃ t, step (start 0xFA15 [(0xA, 3)]) = .next t ∧ (t.dt == 2) = true) ∧
    (Executes ((start 0xFA07 []).setDt 9) (.ldFromDt 0xA) ∧
      ∃ t, step ((start 0xFA07 []).setDt 9) = .next t ∧ (t.dt == 8) = true) ∧
    (Executes (start 0xFA18 [(0xA, 3)]) (.ldSt 0xA) ∧
      ∃ t, step (start 0xFA18 [(0xA, 3)]) = .next t ∧ (t.soundPending) = true) ∧
    (Executes ((start 0x00E0 []).setSt 0) .cls ∧
      ∃ t, step ((start 0x00E0 []).setSt 0) = .next t ∧ (t.redrawPending && !t.soundPending) = true) := by
  refine ⟨⟨?_, ?_⟩, ⟨?_, ?_⟩, ⟨?_, ?_⟩, ?_, ?_⟩
  all_goals first
    | exact executes_iff.mp (by decide)
    | exact ends_iff.mp (by decide)

/-- JumpSetsPc, JumpWithOffset: a target past the last address that executes. -/
theorem test_witness_jump_out :
    (0xFFF : Addr12) = 0xFFF ∧ ∃ t, exec (.jpV0 0xFFF) State.reset = .next t ∧
      (decide (4095 ≤ t.pc.toNat)) = true :=
  ⟨rfl, ends_iff.mp (by decide)⟩

/-- CallPushesItsOwnPc, ReturnPopsAndAddsTwo: each clause at its boundary. -/
theorem test_witness_stack :
    (State.reset.setSp 14).sp.toNat ≤ 14 ∧ (State.reset.setSp 15).sp.toNat = 15 ∧
      1 ≤ (State.reset.setSp 1).sp.toNat ∧ State.reset.sp.toNat = 0 := by decide

/-- CallThenReturn: a call that completes, a later state at its depth with its slot unchanged, and a
slot it changed. -/
theorem test_witness_call_then_return :
    ∃ t, exec (.call 0x300) State.reset = .next t ∧
      (((t.setV 3 7).sp == t.sp) && ((t.setV 3 7).getSlot t.sp == State.reset.pc) &&
        (t.getSlot 1 != State.reset.getSlot 1)) = true :=
  ends_iff.mp (by decide)

/-- AddRegistersWithCarry, SubtractRegistersBothWays, ShiftsByOne: the four cases of x and y. -/
theorem test_witness_vf_cases :
    (∃ x y : Reg, x ≠ VF ∧ y ≠ VF) ∧ (∃ x y : Reg, x = VF ∧ y ≠ VF) ∧ (∃ x y : Reg, x ≠ VF ∧ y = VF) ∧
      ∃ x y : Reg, x = VF ∧ y = VF := by decide

/-- RandomByteIsMasked: a mask with a 0 bit, and mask 0. -/
theorem test_witness_mask : (0x0F : Byte).getLsbD 7 = false ∧ (0 : Byte) = 0 := by decide

/-- StoreDecimalDigits, StoreRegistersThroughX, LoadRegistersThroughX: both clauses at the boundary. -/
theorem test_witness_data_bounds :
    (State.reset.setI 0xFFD).dataAddr 2 ≤ 4095 ∧ 4095 < (State.reset.setI 0xFFE).dataAddr 2 ∧
      (State.reset.setI 0xFF0).dataAddr (0xF : Reg).toNat ≤ 4095 ∧
      4095 < (State.reset.setI 0xFF1).dataAddr (0xF : Reg).toNat := by decide

/-- StoreThenLoadRoundTrip: a store of all registers that completes at the last I that fits. -/
theorem test_witness_store : ∃ t, exec (.storeRegs 0xF) (State.reset.setI 0xFF0) = .next t ∧ true = true :=
  ends_iff.mp (by decide)

/-- OnlyStoresWriteMemory: the last address, and a store that changes a byte. -/
theorem test_witness_memory_changes : (4095 : Nat) ≤ 4095 ∧
    ∃ t, exec (.storeRegs 0) ((State.reset.setV 0 5).setI 0xFFF) = .next t ∧
      (t.mem.read 0xFFF != State.reset.mem.read 0xFFF) = true :=
  ⟨by decide, ends_iff.mp (by decide)⟩

/-- StoredCodeIsFetchedNext: V0 and V1 stored over the next instruction. -/
theorem test_witness_stored_code :
    Executes ((start 0xF155 [(0, 0x12), (1, 0x34)]).setI 0x202) (.storeRegs 1) ∧ 1 ≤ (1 : Reg).toNat ∧
      ((start 0xF155 [(0, 0x12), (1, 0x34)]).setI 0x202).i =
        ((start 0xF155 [(0, 0x12), (1, 0x34)]).setI 0x202).pc + 2 ∧
      ∃ t, step ((start 0xF155 [(0, 0x12), (1, 0x34)]).setI 0x202) = .next t ∧
        (t.mem.read 0x203 == 0x34) = true :=
  ⟨executes_iff.mp (by decide), by decide, by decide, ends_iff.mp (by decide)⟩

/-- DrawSprite: a sprite whose last set bit is the last pixel, without and with a collision. -/
theorem test_witness_draw :
    DataFits ((State.reset.setV 1 60).setV 2 31) 1 ∧
      SpriteFits ((State.reset.setV 1 60).setV 2 31) 1 2 1 ∧
      SpriteCovers ((State.reset.setV 1 60).setV 2 31) 1 2 1 2047 ∧
      (∀ j, SpriteCovers ((State.reset.setV 1 60).setV 2 31) 1 2 1 j →
        ((State.reset.setV 1 60).setV 2 31).pixel j = false) ∧
      SpriteCovers (withPixels ((State.reset.setV 1 60).setV 2 31) [2047]) 1 2 1 2047 ∧
      (withPixels ((State.reset.setV 1 60).setV 2 31) [2047]).pixel 2047 = true := by
  have hf : SpriteFits ((State.reset.setV 1 60).setV 2 31) 1 2 1 := by
    intro r c hr hc hs
    have hr0 : r = 0 := Nat.lt_one_iff.mp hr
    subst hr0
    simp only [SpriteSet, drawIndex] at hs ⊢
    revert hs
    revert c
    decide
  refine ⟨Or.inr (by decide), hf, ⟨0, 3, by decide, by decide, by unfold SpriteSet; decide, by decide⟩, ?_,
    ⟨0, 3, by decide, by decide, by unfold SpriteSet; decide, by decide⟩, by decide⟩
  intro j _
  simp [State.pixel, State.reset]

/-- DrawTwiceRestores: glyph 0 drawn at V0, V1 on a clear framebuffer. -/
theorem test_witness_draw_twice : ∃ t, exec (.drw 0 1 5) State.reset = .next t ∧
    (t.getV 0 == State.reset.getV 0 && t.getV 1 == State.reset.getV 1 && lit State.reset []) = true :=
  ends_iff.mp (by decide +kernel)

/-- SkipOnKey: the last key, pressed and not, and the first number that is no key. -/
theorem test_witness_keys : ((State.reset.setV 0 15).getV 0).toNat = (0xF : BitVec 4).toNat ∧
    (withKeys (State.reset.setV 0 15) [0xF]).key 0xF = true ∧
    (State.reset.setV 0 15).key 0xF = false ∧ 15 < ((State.reset.setV 0 16).getV 0).toNat := by
  decide

/-- WaitForKey: no key pressed, one key, and several. -/
theorem test_witness_wait : (∀ k, State.reset.key k = false) ∧
    ((withKeys State.reset [0]).key 0 = true ∧
      ∀ j j', (withKeys State.reset [0]).key j = true → (withKeys State.reset [0]).key j' = true → j = j') ∧
    (withKeys State.reset [3, 9]).key 9 = true := by decide

/-- EveryInstructionFollowsItsPcPolicy, OnlyListedWritersWrite, OnlyThreeInstructionsWriteI: an
instruction at pc = 4094 that completes with a pc past the end. -/
theorem test_witness_pc_policy : (State.reset.setPc 0xFFE).pc.toNat ≤ 4094 ∧
    ∃ t, exec (.ldI 0x123) (State.reset.setPc 0xFFE) = .next t ∧ (decide (4095 ≤ t.pc.toNat)) = true :=
  ⟨by decide, ends_iff.mp (by decide)⟩

/-- OthersIgnoreKeypadAndDraws. -/
theorem test_witness_others :
    (∀ x, Instr.cls ≠ .skp x ∧ Instr.cls ≠ .sknp x ∧ Instr.cls ≠ .ldKey x) ∧
      ∀ x nn, Instr.cls ≠ .rnd x nn ∧ Instr.cls ≠ .ldKey x := by simp

/-- EveryStepKeepsTheInvariant: a call from a state of the invariant, one call deep. -/
theorem test_witness_invariant :
    ReachInv (((start 0x2ABC []).setSp 1).setSlot 1 4094) ∧
      ∃ t, step (((start 0x2ABC []).setSp 1).setSlot 1 4094) = .next t ∧ (t.sp == 2) = true :=
  ⟨⟨by decide, by decide, by decide⟩, ends_iff.mp (by decide)⟩

/-- EveryDrivenRunKeepsTheInvariant, ResetMeetsTheInvariant, FontAddressOfDigit: an image that calls itself, run for two
steps with keys changing. -/
theorem test_witness_driven_run :
    ∃ s, State.resetWith defaultFont [0x22, 0x00] = .ok s ∧
      ∃ t, drivenRun [Vector.replicate 16 true, Vector.replicate 16 false] s = .next t ∧
        (t.sp == 2) = true :=
  ⟨_, rfl, ends_iff.mp (by decide +kernel)⟩

/-- ElementsDetermineTheState. -/
theorem test_witness_memory_wf : (start 0x6A01 []).mem.wf = true := by decide

/-- ResetPlacesTheImage, ResetRejectsLargeImages: the longest image accepted and the shortest refused. -/
theorem test_witness_images :
    (List.replicate 3584 (1 : Byte)).length ≤ 3584 ∧ 3584 < (List.replicate 3585 (1 : Byte)).length := by
  simp only [List.length_replicate]
  decide

/-- IdleRunsToAFixedPoint, the last clause of JumpSetsPc: a jump to itself. -/
theorem test_witness_idle : Idle (((start 0x1200 []).setDt 255).setSt 255) :=
  ⟨0x200, executes_iff.mp (by decide), by decide⟩

end Sys2Proof.Tests
end

/-! ## The frame of every instruction

`exec` changes an element of the state only where R10's column "written by" lists the instruction
(`MayWrite`). It is proved once here, from the element lemmas of Laws/Elem; a statement about one
element of the state is then an instance of it. -/

section
namespace Sys2Proof.Machine

variable {s t : State} {i : Instr} {e : Elem}

/-! ### When an instruction completes, and with what state -/

/-- 00EE completes above an empty stack (41_control_flow R101). -/
theorem execRet_next (h : execRet s = .next t) :
    s.sp ≠ 0 ∧ t = ((s.setPc (s.getSlot s.sp)).setSp (s.sp - 1)).advance 2 := by
  unfold execRet at h
  split at h <;> cases h
  exact ⟨‹_›, rfl⟩

/-- 2nnn completes below a full stack (41_control_flow R103). -/
theorem execCall_next {nnn : Addr12} (h : execCall nnn s = .next t) :
    s.sp ≠ 15 ∧ t = ((s.setSp (s.sp + 1)).setSlot (s.sp + 1) s.pc).setPc (zextAddr nnn) := by
  unfold execCall at h
  split at h <;> cases h
  exact ⟨‹_›, rfl⟩

/-- Fx0A waits, or writes a key to `V[x]` with or without a draw (45_keypad_timers R163). -/
theorem execLdKey_next {x : Reg} (h : execLdKey x s = .next t) :
    t = s ∨ ∃ b, t = (s.setV x b).advance 2 ∨ t = (s.nextDraw.setV x b).advance 2 := by
  unfold execLdKey at h
  split at h <;> cases h
  · exact .inl rfl
  · exact .inr ⟨_, .inl rfl⟩
  · exact .inr ⟨_, .inr rfl⟩

/-! ### Frames of the operand forms -/

/-- A skip moves `pc` only (40_step_cycle R87). -/
theorem State.elem_skipIf (c : Bool) (hpc : e ≠ .pc) : (s.skipIf c).elem e = s.elem e := by
  simp [State.skipIf, State.elem_advance, hpc]

/-- A checked store touches the bytes from `I` to its last data address only (20_memory R43, R44). -/
theorem State.elem_writeBytes_of_dataFault {last : Nat} {ws : List Byte}
    (hfit : s.dataFault (last + 1) = none) (hlen : ws.length = last + 1)
    (he : ∀ a, s.dataAddr 0 ≤ a ∧ a ≤ s.dataAddr last → e ≠ .byte a) :
    State.elem { s with mem := s.mem.writeBytes (s.dataAddr 0) ws } e = s.elem e := by
  have hfit : s.i.toNat + last ≤ 4095 := by
    simpa [DataFits] using (s.dataFault_none _).mp hfit
  apply s.elem_writeBytes
  · simp only [State.dataAddr, Config.memSize]
    omega
  · refine fun a ha hb => he a ⟨ha, ?_⟩
    simp only [State.dataAddr] at hb ⊢
    omega

/-! ### The frame -/

/-- An element the instruction may write differs from one it may not write. -/
theorem ne_of_not_mayWrite {e' : Elem} (he : ¬ MayWrite s i e) (h : MayWrite s i e') : e ≠ e' :=
  fun h' => he (h' ▸ h)

/-- The execute phase writes only the elements listed for its instruction (10_state R10). -/
theorem exec_sameOutside_mayWrite (h : exec i s = .next t) : SameOutside (MayWrite s i) s t := by
  intro e he
  have hpc : e ≠ .pc := ne_of_not_mayWrite he trivial
  have hreg : ∀ r, WritesReg i r → e ≠ .reg r := fun r hr => ne_of_not_mayWrite he hr
  have hbyte : ∀ a, WritesByte s i a → e ≠ .byte a := fun a ha => ne_of_not_mayWrite he ha
  have hpix : ∀ j, WritesPixel s i j → e ≠ .pixel j := fun j hj => ne_of_not_mayWrite he hj
  cases i with
  | cls =>
    have hred : e ≠ .redraw := ne_of_not_mayWrite he rfl
    cases h
    simp [State.elem_advance, State.elem_setRedraw, hpc, hred,
      State.elem_clearPixels _ e fun j => hpix j trivial]
  | ret =>
    have hsp : e ≠ .sp := ne_of_not_mayWrite he (.inl rfl)
    obtain ⟨-, rfl⟩ := execRet_next h
    simp [State.elem_advance, State.elem_setSp, State.elem_setPc, hpc, hsp]
  | call nnn =>
    obtain ⟨hsp15, rfl⟩ := execCall_next h
    have hsp : e ≠ .sp := ne_of_not_mayWrite he (.inr ⟨nnn, rfl⟩)
    have hslot : e ≠ .slot (s.sp + 1) := ne_of_not_mayWrite he ⟨⟨nnn, rfl⟩, by bv_omega⟩
    rw [State.elem_setPc, if_neg hpc, State.elem_setSlot, if_neg hslot, State.elem_setSp, if_neg hsp]
  | jp | jpV0 =>
    cases h
    simp [State.elem_setPc, hpc]
  | seImm | sneImm | seReg | sneReg =>
    cases h
    exact State.elem_skipIf _ hpc
  | skp | sknp =>
    obtain ⟨-, h⟩ := guarded_next.mp h
    cases h
    exact State.elem_skipIf _ hpc
  | ldImm x | addImm x | ldReg x | orReg x | andReg x | xorReg x | ldFromDt x =>
    cases h
    simp [State.elem_advance, State.elem_setV, hpc, hreg x rfl]
  | addReg x | subReg x | shr x | subn x | shl x =>
    cases h
    simp [State.elem_advance, State.elem_flagThenResult, hpc, hreg x (.inl rfl), hreg VF (.inr rfl)]
  | rnd x nn =>
    have hdraws : e ≠ .draws := ne_of_not_mayWrite he (.inl ⟨x, nn, rfl⟩)
    cases h
    simp [State.elem_advance, State.elem_setV, State.elem_nextDraw, hpc, hdraws, hreg x rfl]
  | ldKey x =>
    have hdraws : e ≠ .draws := ne_of_not_mayWrite he (.inr ⟨x, rfl⟩)
    obtain rfl | ⟨b, rfl | rfl⟩ := execLdKey_next h
    · rfl
    · simp [State.elem_advance, State.elem_setV, hpc, hreg x rfl]
    · simp [State.elem_advance, State.elem_setV, State.elem_nextDraw, hpc, hdraws, hreg x rfl]
  | ldI | addI | ldFont =>
    have hi : e ≠ .addrReg := ne_of_not_mayWrite he (by simp [MayWrite])
    cases h
    simp [State.elem_advance, State.elem_setI, hpc, hi]
  | ldDt x =>
    have hdt : e ≠ .delayTimer := ne_of_not_mayWrite he ⟨x, rfl⟩
    cases h
    simp [State.elem_advance, State.elem_setDt, hpc, hdt]
  | ldSt x =>
    have hst : e ≠ .soundTimer := ne_of_not_mayWrite he ⟨x, rfl⟩
    cases h
    simp [State.elem_advance, State.elem_setSt, hpc, hst]
  | drw x y n =>
    have hred : e ≠ .redraw := ne_of_not_mayWrite he rfl
    obtain ⟨-, h⟩ := guarded_next.mp h
    obtain ⟨hfit, h⟩ := guarded_next.mp h
    have hdraw := State.elem_foldl_drawPixel (s.setV VF 0) _ ((pixelFault_none _).mp hfit) e
      (hreg VF rfl) fun j hj => hpix j ((s.mem_spritePixels _ _ _ j).mp hj)
    cases h
    rw [State.elem_advance, if_neg hpc, State.elem_setRedraw, if_neg hred, hdraw, State.elem_setV,
      if_neg (hreg VF rfl)]
  | ldBcd x =>
    obtain ⟨hfit, h⟩ := guarded_next.mp h
    cases h
    rw [State.elem_advance, if_neg hpc]
    exact State.elem_writeBytes_of_dataFault hfit (bcdDigits_length _) hbyte
  | storeRegs x =>
    obtain ⟨hfit, h⟩ := guarded_next.mp h
    cases h
    rw [State.elem_advance, if_neg hpc]
    exact State.elem_writeBytes_of_dataFault hfit (s.regsThrough_length x) hbyte
  | loadRegs x =>
    obtain ⟨-, h⟩ := guarded_next.mp h
    cases h
    rw [State.elem_advance, if_neg hpc]
    exact s.elem_loadFrom _ _ x.isLt e fun r hr => hreg r (Nat.le_of_lt_succ hr)

end Sys2Proof.Machine
end

/-! ## The delay timer (10_state R17) -/

section
namespace Sys2Proof.Machine

variable {s t : State} {i : Instr} {x : Reg}

/-- A completing step whose word decodes to `i` is `i` on the state with its transient flags cleared,
then the tick (40_step_cycle R80). -/
theorem step_next_of_executes (hx : Executes s i) (h : step s = .next t) :
    ∃ u, exec i s.clearFlags = .next u ∧ t = u.tick := by
  obtain ⟨-, j, hj, u, hu, rfl⟩ := step_next.mp h
  obtain rfl : j = i := Option.some.inj (hj.symm.trans hx.2)
  exact ⟨u, hu, rfl⟩

@[simp] theorem State.getV_clearFlags (s : State) (r : Reg) : s.clearFlags.getV r = s.getV r := rfl

@[simp] theorem State.getV_tick (s : State) (r : Reg) : s.tick.getV r = s.getV r := by
  simp [State.getV]

/-- The write of Fx15 (45_keypad_timers R164). -/
theorem exec_ldDt_dt (h : exec (.ldDt x) s = .next t) : t.dt = s.getV x := by
  cases h
  rfl

/-- Only Fx15 writes DT (10_state R10, R17): the frame at that element. -/
theorem exec_dt_of_ne_ldDt (hi : ∀ x, i ≠ .ldDt x) (h : exec i s = .next t) :
    t.dt = s.dt :=
  BitVec.eq_of_toNat_eq (exec_sameOutside_mayWrite h .delayTimer fun ⟨x, hx⟩ => hi x hx)

/-- The read of Fx07 comes before any tick (45_keypad_timers R162). -/
theorem exec_ldFromDt_getV (h : exec (.ldFromDt x) s = .next t) : t.getV x = s.dt := by
  cases h
  simp

/-- Settles O12: DT is outside what every instruction but Fx15 may write, and the tick that follows
takes one off it unless it is 0. -/
theorem delayTimerAfterStep : Obligations.DelayTimerAfterStep := by
  refine ⟨fun s t i hx h => ?_, rfl⟩
  obtain ⟨u, hu, rfl⟩ := step_next_of_executes hx h
  constructor
  · rw [State.tick_dt]
    congr 1
    split
    next x => simp [exec_ldDt_dt hu]
    next hi => simp [exec_dt_of_ne_ldDt hi hu]
  · rintro x rfl
    simp [exec_ldFromDt_getV hu]

end Sys2Proof.Machine
end

/-! ## Memory is written by the two stores alone (20_memory R43) -/

section
namespace Sys2Proof.Machine

variable {s t : State} {i : Instr} {a : Nat}

/-- Only Fx33 and Fx55 list a byte of memory among what they may write (10_state R10). -/
theorem isStore_of_writesByte (h : WritesByte s i a) : ∃ x, i = .ldBcd x ∨ i = .storeRegs x := by
  unfold WritesByte at h
  split at h
  next x => exact ⟨x, .inl rfl⟩
  next x => exact ⟨x, .inr rfl⟩
  next => exact h.elim

/-- A byte outside the instruction's data range reads as before: the frame at that element. -/
theorem exec_read_of_not_writesByte (ha : ¬ WritesByte s i a) (h : exec i s = .next t) :
    t.mem.read a = s.mem.read a :=
  BitVec.eq_of_toNat_eq (exec_sameOutside_mayWrite h (.byte a) ha)

/-- Settles O33: the read after a write is `Memory.read_write`, and a byte that changed lies in the
data range of the instruction, which only the two stores have. -/
theorem onlyStoresWriteMemory : Obligations.OnlyStoresWriteMemory := by
  refine ⟨fun m a b w ha => m.read_write (Nat.lt_succ_of_le ha) w b, fun i s t a h hne => ?_⟩
  have hw : WritesByte s i a := not_not.mp fun hw => hne (exec_read_of_not_writesByte hw h)
  exact isStore_of_writesByte hw

end Sys2Proof.Machine
end

/-! ## The pc policy of every instruction (40_step_cycle R86) -/

section
namespace Sys2Proof.Machine

variable {s t : State} {i : Instr} {x : Reg}

/-! ### What moves `pc` -/

@[simp] theorem State.skipIf_pc (s : State) (c : Bool) :
    (s.skipIf c).pc = s.pc + if c then 4 else 2 := rfl

/-- Loads do not move `pc`: the frame of the loads at that element. -/
theorem State.loadFrom_pc (s : State) (base : Nat) {count : Nat} (hc : count ≤ 16) :
    (s.loadFrom base count).pc = s.pc :=
  BitVec.eq_of_toNat_eq (s.elem_loadFrom base count hc .pc nofun)

/-- Drawing does not move `pc`: the frame of the drawn pixels at that element. -/
theorem State.foldl_drawPixel_pc (s : State) {js : List Nat} (hjs : ∀ j ∈ js, j < Config.pixels) :
    (js.foldl State.drawPixel s).pc = s.pc :=
  BitVec.eq_of_toNat_eq (s.elem_foldl_drawPixel js hjs .pc nofun nofun)

theorem toNat_zextAddr (nnn : Addr12) : (zextAddr nnn).toNat = nnn.toNat :=
  BitVec.toNat_setWidth_of_le (by decide)

/-- The sum of Bnnn is at most 4095 + 255, so it does not wrap (41_control_flow R108). -/
theorem toNat_zextAddr_add_zextByte (nnn : Addr12) (b : Byte) :
    (zextAddr nnn + zextByte b).toNat = nnn.toNat + b.toNat := by
  simp only [zextAddr, zextByte]
  bv_omega

theorem State.pressedKeys_eq_nil : s.pressedKeys = [] ↔ ∀ k, s.key k = false := by
  simp [List.eq_nil_iff_forall_not_mem, State.mem_pressedKeys]

/-- Fx0A holds `pc` exactly while no key is pressed (45_keypad_timers R163). -/
theorem execLdKey_pc (h : execLdKey x s = .next t) :
    t.pc = if s.pressedKeys = [] then s.pc else s.pc + 2 := by
  unfold execLdKey at h
  split at h <;> cases h
  next hnone => rw [if_pos hnone]
  next hone => simp [hone]
  next hmany => simp [hmany]

/-- Every instruction leaves the `pc` of its row in R86's table. -/
theorem exec_pcPolicy (h : exec i s = .next t) : PcPolicy s t.pc i := by
  cases i with
  | jp nnn =>
    cases h
    exact toNat_zextAddr nnn
  | call nnn =>
    obtain ⟨-, rfl⟩ := execCall_next h
    exact toNat_zextAddr nnn
  | jpV0 nnn =>
    cases h
    exact toNat_zextAddr_add_zextByte nnn (s.getV 0)
  | ret =>
    obtain ⟨-, rfl⟩ := execRet_next h
    exact rfl
  | seImm | sneImm | seReg | sneReg =>
    cases h
    simp [PcPolicy]
  | skp | sknp =>
    obtain ⟨-, h⟩ := guarded_next.mp h
    cases h
    simp [PcPolicy, State.keyOf]
  | ldKey x =>
    have hpc := execLdKey_pc h
    constructor
    · exact fun hnone => hpc.trans (if_pos (State.pressedKeys_eq_nil.mpr hnone))
    · exact fun ⟨k, hk⟩ => hpc.trans (if_neg (List.ne_nil_of_mem ((s.mem_pressedKeys k).mpr hk)))
  | drw x y n =>
    obtain ⟨-, h⟩ := guarded_next.mp h
    obtain ⟨hfit, h⟩ := guarded_next.mp h
    cases h
    simp [PcPolicy, State.foldl_drawPixel_pc _ ((pixelFault_none _).mp hfit)]
  | loadRegs x =>
    obtain ⟨-, h⟩ := guarded_next.mp h
    cases h
    simp [PcPolicy, s.loadFrom_pc _ x.isLt]
  | ldBcd | storeRegs =>
    obtain ⟨-, h⟩ := guarded_next.mp h
    cases h
    exact rfl
  | cls | ldImm | addImm | ldReg | orReg | andReg | xorReg | addReg | subReg | shr | subn | shl
  | ldI | rnd | ldFromDt | ldDt | ldSt | addI | ldFont =>
    cases h
    exact rfl

/-! ### The end of memory -/

/-- A step at a `pc` with no second byte faults at its fetch (40_step_cycle R81). -/
theorem step_fault_of_pc_ge (hpc : 4095 ≤ s.pc.toNat) :
    step s = .fault (.outOfBounds .fetch s.pc.toNat) := by
  have hfetch : s.fetch = .error (.outOfBounds .fetch s.pc.toNat) := if_pos (Nat.succ_le_succ hpc)
  simp [step, cycleWith, hfetch, raise]

/-- No increment of the policy wraps at a `pc` that can execute (40_step_cycle R86). -/
theorem toNat_add_of_le_4094 {pc k : Word} (hpc : pc.toNat ≤ 4094) (hk : k.toNat ≤ 4) :
    (pc + k).toNat = pc.toNat + k.toNat := by
  bv_omega

/-- Settles O43: the policy is `exec_pcPolicy`, by cases on the instruction; the tick leaves `pc`, so
the next step fetches at the `pc` the instruction left. -/
theorem everyInstructionFollowsItsPcPolicy : Obligations.EveryInstructionFollowsItsPcPolicy := by
  refine fun i s t h => ⟨exec_pcPolicy h, fun hpc => ?_, fun hpc => ?_⟩
  · exact ⟨toNat_add_of_le_4094 hpc (by decide), toNat_add_of_le_4094 hpc (by decide)⟩
  · rw [← t.tick_pc] at hpc ⊢
    exact step_fault_of_pc_ge hpc

end Sys2Proof.Machine
end

/-! ## Control flow (41_control_flow) -/

section
namespace Sys2Proof.Machine

variable {s t u : State} {i : Instr} {nnn : Addr12}

/-! ### Calls and returns -/

/-- 00EE completes at every `sp` but 0 (41_control_flow R101). -/
theorem exec_ret_of_sp_ne_zero (hsp : s.sp ≠ 0) :
    exec .ret s = .next (((s.setPc (s.getSlot s.sp)).setSp (s.sp - 1)).advance 2) :=
  if_neg hsp

/-- A call leaves its own `pc` in the slot on top (41_control_flow R103). -/
theorem exec_call_topSlot (h : exec (.call nnn) s = .next t) : t.getSlot t.sp = s.pc := by
  obtain ⟨-, rfl⟩ := execCall_next h
  simp [State.getSlot_setSlot]

/-- A return at the depth of a completed call, with the slot as the call left it, continues after the
call (41_control_flow R109). -/
theorem exec_ret_of_call (h : exec (.call nnn) s = .next t) (hsp : u.sp = t.sp)
    (hslot : u.getSlot u.sp = s.pc) :
    ∃ w, exec .ret u = .next w ∧ w.pc = s.pc + 2 ∧ w.sp = s.sp := by
  obtain ⟨hfull, rfl⟩ := execCall_next h
  have hdepth : u.sp = s.sp + 1 := hsp
  have hpos : u.sp ≠ 0 := by bv_omega
  refine ⟨_, exec_ret_of_sp_ne_zero hpos, ?_, ?_⟩
  · simp [hslot]
  · simp [hdepth]

/-- A stack slot that changed is one the instruction may write: the frame at that element. -/
theorem mayWrite_slot_of_getSlot_ne {k : BitVec 4} (h : exec i s = .next t)
    (hne : t.getSlot k ≠ s.getSlot k) : MayWrite s i (.slot k) :=
  not_not.mp fun hw => hne (BitVec.eq_of_toNat_eq (exec_sameOutside_mayWrite h (.slot k) hw))

/-- Settles O17: the return straight after the call is the later return at the state the call left,
and only 2nnn lists a stack slot among what it may write. -/
theorem callThenReturn : Obligations.CallThenReturn := by
  refine ⟨fun nnn s t h => ⟨?_, fun u hsp hslot => exec_ret_of_call h hsp hslot⟩, ?_⟩
  · exact exec_ret_of_call h rfl (exec_call_topSlot h)
  · intro i s t k h hne
    obtain ⟨⟨nnn, hi⟩, hk⟩ : MayWrite s i (.slot k) := mayWrite_slot_of_getSlot_ne h hne
    exact ⟨nnn, hi, hk⟩

/-! ### Jumps -/

/-- A write of `pc` leaves every other element (10_state R13). -/
theorem State.sameExcept_setPc (s : State) (w : Word) : SameExcept [.pc] s (s.setPc w) := by
  intro e he
  rw [State.elem_setPc, if_neg (by simpa using he)]

/-- The timers do not move `pc`, so the step after an instruction that left `pc` past the last
fetchable address faults at its fetch (40_step_cycle R81). -/
theorem step_tick_fault_of_pc_ge (hpc : 4095 ≤ t.pc.toNat) :
    step t.tick = .fault (.outOfBounds .fetch t.pc.toNat) := by
  rw [← t.tick_pc] at hpc ⊢
  exact step_fault_of_pc_ge hpc

/-- The step of an instruction that completes (40_step_cycle R80). -/
theorem step_of_executes (hx : Executes s i) (h : exec i s.clearFlags = .next u) :
    step s = .next u.tick := by
  obtain ⟨hpc, hdecode⟩ := hx
  exact step_next.mpr ⟨hpc, i, hdecode, u, h, rfl⟩

/-- A jump to its own address leaves the state (41_control_flow R102). -/
theorem exec_jp_self (h : nnn.toNat = s.pc.toNat) : exec (.jp nnn) s = .next s := by
  have hpc : zextAddr nnn = s.pc := BitVec.eq_of_toNat_eq ((toNat_zextAddr nnn).trans h)
  calc exec (.jp nnn) s = .next (s.setPc (zextAddr nnn)) := rfl
    _ = .next (s.setPc s.pc) := by rw [hpc]
    _ = .next s := rfl

/-- Settles O14: a jump is one write of `pc`, which a jump to itself leaves as it is. -/
theorem jumpSetsPc : Obligations.JumpSetsPc := by
  intro nnn s
  refine ⟨by simp [decode], s.setPc (zextAddr nnn), rfl, toNat_zextAddr nnn,
    s.sameExcept_setPc _, ?_, ?_⟩
  · rintro rfl
    exact step_tick_fault_of_pc_ge (toNat_zextAddr 0xFFF).ge
  · exact fun hx hself => step_of_executes hx (exec_jp_self hself)

/-- Settles O20: the sum does not wrap, so `pc` is the exact sum. -/
theorem jumpWithOffset : Obligations.JumpWithOffset := by
  intro nnn s
  exact ⟨by simp [decode], s.setPc (zextAddr nnn + zextByte (s.getV 0)), rfl,
    toNat_zextAddr_add_zextByte nnn _, s.sameExcept_setPc _, step_tick_fault_of_pc_ge⟩

/-! ### Skips -/

/-- What an instruction that skips on `c` leaves: the `pc` of the skip policy, and every other element
as it was (40_step_cycle R87). -/
theorem exec_skip {b : Bool} {c : Prop} [Decidable c] (hb : b = true ↔ c)
    (h : exec i s = .next (s.skipIf b)) :
    ∃ t, exec i s = .next t ∧ t.pc = (if c then s.pc + 4 else s.pc + 2) ∧ SameExcept [.pc] s t := by
  refine ⟨_, h, ?_, s.sameExcept_setPc _⟩
  simp only [State.skipIf_pc, hb]
  exact apply_ite (s.pc + ·) c 4 2

/-- Settles O18: both are skips, on the two outcomes of one comparison. -/
theorem skipOnImmediate : Obligations.SkipOnImmediate := by
  intro x nn s
  exact ⟨by simp [decode], by simp [decode], exec_skip beq_iff_eq rfl, exec_skip bne_iff_ne rfl⟩

/-- Settles O19: both are skips, on the two outcomes of one comparison; the decoder of categories 5
and 9 asks for the low nibble 0. -/
theorem skipOnRegister : Obligations.SkipOnRegister := by
  intro x y s
  exact ⟨fun n => by simp [decode], fun n => by simp [decode], exec_skip beq_iff_eq rfl,
    exec_skip bne_iff_ne rfl⟩

end Sys2Proof.Machine
end

/-! ## Loads, the immediate addition and the bitwise operations (42_load_arith_logic) -/

section
namespace Sys2Proof.Machine

variable {s : State} {i : Instr} {x : Reg} {b : Byte}

/-- A word of category 8 is decoded by its low nibble (30_encoding R64 rows 10 to 18). -/
theorem decode_wordXyn_alu (x y : Reg) (n : Nibble) :
    decode (wordXyn 0x8 x y n) = decodeAlu x y n.toNat := by
  simp [decode]

/-! ### One register write -/

/-- A register write and the move to the next instruction leave every element but that register and
`pc`, so VF too unless it is the destination (10_state R11, R12). -/
theorem State.sameExcept_setV_advance (s : State) (x : Reg) (b : Byte) (k : Word) :
    SameExcept [.pc, .reg x] s ((s.setV x b).advance k) := by
  intro e he
  obtain ⟨hpc, hreg⟩ : e ≠ .pc ∧ e ≠ .reg x := by simpa using he
  rw [State.elem_advance, if_neg hpc, State.elem_setV, if_neg hreg]

/-- What an instruction that only writes `b` to `V[x]` leaves: that value, `pc + 2`, and every other
element as it was (40_step_cycle R86). -/
theorem exec_setV (h : exec i s = .next ((s.setV x b).advance 2)) :
    ∃ t, exec i s = .next t ∧ t.getV x = b ∧ t.pc = s.pc + 2 ∧ SameExcept [.pc, .reg x] s t :=
  ⟨_, h, s.getV_setV_same x b, rfl, s.sameExcept_setV_advance x b 2⟩

/-- `exec_setV` for a result that is known bit by bit. -/
theorem exec_setV_bits {bit : Nat → Bool} (h : exec i s = .next ((s.setV x b).advance 2))
    (hbit : ∀ k, b.getLsbD k = bit k) :
    ∃ t, exec i s = .next t ∧ t.pc = s.pc + 2 ∧ SameExcept [.pc, .reg x] s t ∧
      ∀ k, (t.getV x).getLsbD k = bit k := by
  obtain ⟨t, hexec, rfl, hpc, hframe⟩ := exec_setV h
  exact ⟨t, hexec, hpc, hframe, hbit⟩

/-! ### The instructions -/

/-- Settles O21: both are one register write, of the immediate and of `V[y]`. -/
theorem loadAndCopyRegister : Obligations.LoadAndCopyRegister := by
  intro x y nn s
  exact ⟨by simp [decode], decode_wordXyn_alu x y 0x0, exec_setV rfl, exec_setV rfl⟩

/-- Settles O22: one register write, of the sum of two bytes. -/
theorem addImmediateWraps : Obligations.AddImmediateWraps := by
  intro x nn s
  obtain ⟨t, hexec, hsum, hpc, hframe⟩ := exec_setV (i := .addImm x nn) (s := s) rfl
  refine ⟨by simp [decode], t, hexec, ?_, hpc, hframe⟩
  rw [hsum, BitVec.toNat_add]

/-- Settles O23: each is one register write, of the operands' bitwise or, and, exclusive or. -/
theorem bitwiseOperations : Obligations.BitwiseOperations := by
  intro x y s
  refine ⟨decode_wordXyn_alu x y 0x1, decode_wordXyn_alu x y 0x2, decode_wordXyn_alu x y 0x3,
    ?or, ?and, ?xor⟩
  case or => exact exec_setV_bits rfl fun _ => BitVec.getLsbD_or
  case and => exact exec_setV_bits rfl fun _ => BitVec.getLsbD_and
  case xor => exact exec_setV_bits rfl fun _ => BitVec.getLsbD_xor

end Sys2Proof.Machine
end

/-! ## The loads of the address register (43_index_memory) -/

section
namespace Sys2Proof.Machine

variable {s : State} {i : Instr} {w : Word} {n : Nat}

/-- A word of category F is decoded by its low byte (30_encoding R64 rows 26 to 34). -/
theorem decode_wordXnn_misc (x : Reg) (nn : Byte) :
    decode (wordXnn 0xF x nn) = decodeMisc x nn.toNat := by
  simp [decode]

/-! ### One write of I -/

/-- A write of I and the move to the next instruction leave every element but I and `pc`, so VF too
(10_state R14). -/
theorem State.sameExcept_setI_advance (s : State) (w k : Word) :
    SameExcept [.pc, .addrReg] s ((s.setI w).advance k) := by
  intro e he
  obtain ⟨hpc, haddr⟩ : e ≠ .pc ∧ e ≠ .addrReg := by simpa using he
  rw [State.elem_advance, if_neg hpc, State.elem_setI, if_neg haddr]

/-- What an instruction that only writes a word of value `n` to I leaves: that value, `pc + 2`, and
every other element as it was (40_step_cycle R86). -/
theorem exec_setI (h : exec i s = .next ((s.setI w).advance 2)) (hw : w.toNat = n) :
    ∃ t, exec i s = .next t ∧ t.i.toNat = n ∧ t.pc = s.pc + 2 ∧ SameExcept [.pc, .addrReg] s t :=
  ⟨_, h, hw, rfl, s.sameExcept_setI_advance w 2⟩

/-! ### The words written -/

theorem toNat_zextByte (b : Byte) : (zextByte b).toNat = b.toNat :=
  BitVec.toNat_setWidth_of_le (by decide)

/-- The sum of Fx1E is reduced to the 16 bits of I (43_index_memory R141). -/
theorem toNat_add_zextByte (w : Word) (b : Byte) :
    (w + zextByte b).toNat = (w.toNat + b.toNat) % 65536 := by
  rw [BitVec.toNat_add, toNat_zextByte]

/-- The font address of Fx29 is at most 255 * 5, so it does not wrap (43_index_memory R142). -/
theorem toNat_zextByte_mul_five (b : Byte) : (zextByte b * 5).toNat = b.toNat * 5 := by
  have hfit : b.toNat * 5 < 2 ^ 16 := by omega
  rw [BitVec.toNat_mul, toNat_zextByte]
  exact Nat.mod_eq_of_lt hfit

/-! ### The instructions -/

/-- Settles O28: each is one write of I, of `nnn`, of the sum modulo 65536, and of the product, which
does not wrap. -/
theorem addressRegisterLoads : Obligations.AddressRegisterLoads := by
  intro x nnn s
  refine ⟨by simp [decode], decode_wordXnn_misc x 0x1E, decode_wordXnn_misc x 0x29,
    ?load, ?add, ?font⟩
  case load => exact exec_setI rfl (toNat_zextAddr nnn)
  case add => exact exec_setI rfl (toNat_add_zextByte s.i (s.getV x))
  case font => exact exec_setI rfl (toNat_zextByte_mul_five (s.getV x))

end Sys2Proof.Machine
end

/-! ## The graphics instructions (44_graphics) -/

section
namespace Sys2Proof.Machine

/-- The elements R10 lets 00E0 write: `pc`, `redraw_pending` and the pixels (44_graphics R151). -/
theorem mayWrite_cls {s : State} {e : Elem} (h : MayWrite s .cls e) :
    e = .pc ∨ e = .redraw ∨ ∃ j, e = .pixel j := by
  cases e with
  | pc => exact .inl rfl
  | redraw => exact .inr (.inl rfl)
  | pixel j => exact .inr (.inr ⟨j, rfl⟩)
  | _ => simp [MayWrite, WritesReg, WritesByte] at h

/-- Settles O35: 00E0 has no precondition, every pixel of the cleared framebuffer is off, and its
frame is the frame of every instruction at the elements 00E0 may write. -/
theorem clearScreen : Obligations.ClearScreen := by
  refine ⟨by decide, fun s => ⟨_, rfl, s.pixel_clearPixels, rfl, rfl, ?frame⟩⟩
  case frame => exact fun e he => exec_sameOutside_mayWrite rfl e (mt mayWrite_cls he)

end Sys2Proof.Machine
end

/-! ## The timer instructions (45_keypad_timers) -/

section
namespace Sys2Proof.Machine

/-- A write of DT and the move to the next instruction leave every element but DT and `pc`
(10_state R17). -/
theorem State.sameExcept_setDt_advance (s : State) (b : Byte) (k : Word) :
    SameExcept [.pc, .delayTimer] s ((s.setDt b).advance k) := by
  intro e he
  obtain ⟨hpc, hdt⟩ : e ≠ .pc ∧ e ≠ .delayTimer := by simpa using he
  rw [State.elem_advance, if_neg hpc, State.elem_setDt, if_neg hdt]

/-- A write of ST and the move to the next instruction leave every element but ST and `pc`, so
`sound_pending` too (10_state R18). -/
theorem State.sameExcept_setSt_advance (s : State) (b : Byte) (k : Word) :
    SameExcept [.pc, .soundTimer] s ((s.setSt b).advance k) := by
  intro e he
  obtain ⟨hpc, hst⟩ : e ≠ .pc ∧ e ≠ .soundTimer := by simpa using he
  rw [State.elem_advance, if_neg hpc, State.elem_setSt, if_neg hst]

/-- Settles O40: each is one write, of `V[x]`, DT or ST. The tick leaves `V[x]`; it takes one off a
timer just written as off any other, and sets `sound_pending`, which the step had cleared, exactly if
ST was written above 0. -/
theorem timerTransfers : Obligations.TimerTransfers := by
  intro x s
  refine ⟨decode_wordXnn_misc x 0x07, decode_wordXnn_misc x 0x15, decode_wordXnn_misc x 0x18,
    exec_setV rfl, ⟨_, rfl, rfl, rfl, s.sameExcept_setDt_advance _ 2⟩,
    ⟨_, rfl, rfl, rfl, s.sameExcept_setSt_advance _ 2⟩, ?readDt, ?writeDt, ?writeSt⟩
  case readDt =>
    intro hx
    refine ⟨_, step_of_executes hx rfl, ?_, State.tick_dt _⟩
    rw [State.getV_tick]
    exact exec_ldFromDt_getV (s := s.clearFlags) rfl
  case writeDt => exact fun hx => ⟨_, step_of_executes hx rfl, State.tick_dt _⟩
  case writeSt =>
    intro hx
    refine ⟨_, step_of_executes hx rfl, State.tick_st _, ?_⟩
    rw [State.tick_soundPending]
    exact Bool.or_false _

end Sys2Proof.Machine
end

/-! ## The decoder and the encoder (30_encoding) -/

section
namespace Sys2Proof

variable {op : Word} {i : Instr}

/-! ### Decoding what was encoded -/

/-- The decoder reads back every operand of every format (30_encoding R62, R64): the category selects
the arm, and in categories 8, E and F the low digits select the row. -/
theorem decode_encode (i : Instr) : decode (encode i) = some i := by
  cases i with
  | cls | ret => decide
  | jp | call | ldI | jpV0 => simp [encode, decode]
  | seImm | sneImm | ldImm | addImm | rnd => simp [encode, decode]
  | seReg | sneReg | drw => simp [encode, decode]
  | ldReg | orReg | andReg | xorReg | addReg | subReg | shr | subn | shl =>
    exact Machine.decode_wordXyn_alu _ _ _
  | skp | sknp => simp [encode, decode, decodeKey]
  | ldFromDt | ldKey | ldDt | ldSt | addI | ldFont | ldBcd | storeRegs | loadRegs =>
    exact Machine.decode_wordXnn_misc _ _

/-- The two bytes of an instruction are read as its word, and the bytes after them are left
(30_encoding R60). -/
theorem decodeBytes_encodeBytes (i : Instr) (rest : List Byte) :
    decodeBytes (encodeBytes i ++ rest) = .ok (i, rest) := by
  simp [encodeBytes, decodeBytes, decode_encode]

/-- Settles O2: the fields of a composed word are its parts, and its two bytes join to it. -/
theorem decodeOfEncode : Obligations.DecodeOfEncode :=
  fun i rest => ⟨decode_encode i, decodeBytes_encodeBytes i rest⟩

/-- Settles O1: the decoder evaluated on the ten words. -/
theorem specWordsDecode : Obligations.SpecWordsDecode := by
  unfold Obligations.SpecWordsDecode
  decide

/-! ### Encoding what was decoded -/

/-- A bit vector of a known value is that literal. -/
theorem eq_ofNat_of_toNat_eq {w k : Nat} {a : BitVec w} (h : a.toNat = k) :
    a = BitVec.ofNat w k := by
  rw [← h, BitVec.ofNat_toNat, BitVec.setWidth_eq]

theorem wordNnn_of_fieldCat {c : Nibble} (hc : fieldCat op = c) : wordNnn c (fieldNnn op) = op :=
  hc ▸ wordNnn_fields op

theorem wordXnn_of_fieldCat {c : Nibble} (hc : fieldCat op = c) :
    wordXnn c (fieldX op) (fieldNn op) = op :=
  hc ▸ wordXnn_fields op

theorem wordXyn_of_fieldCat {c : Nibble} (hc : fieldCat op = c) :
    wordXyn c (fieldX op) (fieldY op) (fieldN op) = op :=
  hc ▸ wordXyn_fields op

/-- Category 8: the low nibble is a digit of the row, and `y` is encoded where it has no effect too
(30_encoding R65). -/
theorem encode_of_decodeAlu {x y : Reg} {n : Nibble} (h : decodeAlu x y n.toNat = some i) :
    encode i = wordXyn 0x8 x y n := by
  unfold decodeAlu at h
  split at h <;> cases h <;>
    exact congrArg (wordXyn 0x8 x y) (eq_ofNat_of_toNat_eq ‹n.toNat = _›).symm

/-- Category E: the low byte is the row's. -/
theorem encode_of_decodeKey {x : Reg} {nn : Byte} (h : decodeKey x nn.toNat = some i) :
    encode i = wordXnn 0xE x nn := by
  unfold decodeKey at h
  split at h <;> cases h <;>
    exact congrArg (wordXnn 0xE x) (eq_ofNat_of_toNat_eq ‹nn.toNat = _›).symm

/-- Category F: the low byte is the row's. -/
theorem encode_of_decodeMisc {x : Reg} {nn : Byte} (h : decodeMisc x nn.toNat = some i) :
    encode i = wordXnn 0xF x nn := by
  unfold decodeMisc at h
  split at h <;> cases h <;>
    exact congrArg (wordXnn 0xF x) (eq_ofNat_of_toNat_eq ‹nn.toNat = _›).symm

/-- Every arm of the decoder keeps all the fields of the word (30_encoding R61). -/
theorem encode_of_decode (h : decode op = some i) : encode i = op := by
  unfold decode at h
  split at h
  case h_1 =>
    split_ifs at h <;> cases h <;> exact Eq.symm ‹_›
  case h_2 hc | h_3 hc | h_11 hc | h_12 hc =>
    cases h
    exact wordNnn_of_fieldCat (eq_ofNat_of_toNat_eq hc)
  case h_4 hc | h_5 hc | h_7 hc | h_8 hc | h_13 hc =>
    cases h
    exact wordXnn_of_fieldCat (eq_ofNat_of_toNat_eq hc)
  case h_6 hc | h_10 hc =>
    split_ifs at h with hn
    cases h
    have hw := wordXyn_of_fieldCat (eq_ofNat_of_toNat_eq hc)
    rwa [hn] at hw
  case h_9 hc =>
    exact (encode_of_decodeAlu h).trans (wordXyn_of_fieldCat (eq_ofNat_of_toNat_eq hc))
  case h_14 hc =>
    cases h
    exact wordXyn_of_fieldCat (eq_ofNat_of_toNat_eq hc)
  case h_15 hc =>
    exact (encode_of_decodeKey h).trans (wordXnn_of_fieldCat (eq_ofNat_of_toNat_eq hc))
  case h_16 =>
    have hc : fieldCat op = 0xF := by
      simp only [imp_false] at *
      bv_omega
    exact (encode_of_decodeMisc h).trans (wordXnn_of_fieldCat hc)

/-- Settles O3: each arm of the decoder is entered at one category and keeps the other digits. -/
theorem encodeOfDecode : Obligations.EncodeOfDecode :=
  fun _ _ => encode_of_decode

/-! ### The words no arm recognises (30_encoding R66) -/

theorem decodeAlu_eq_none {x y : Reg} {n : Nibble} : decodeAlu x y n.toNat = none ↔
    n ∈ ([0x8, 0x9, 0xA, 0xB, 0xC, 0xD, 0xF] : List Nibble) := by
  unfold decodeAlu
  split
  case h_10 =>
    have hn := n.isLt
    simp_all [← BitVec.toNat_inj]
    omega
  all_goals simp [eq_ofNat_of_toNat_eq ‹n.toNat = _›]

theorem decodeKey_eq_none {x : Reg} {nn : Byte} : decodeKey x nn.toNat = none ↔
    nn ∉ ([0x9E, 0xA1] : List Byte) := by
  unfold decodeKey
  split
  case h_3 => simp_all [← BitVec.toNat_inj]
  all_goals simp [eq_ofNat_of_toNat_eq ‹nn.toNat = _›]

theorem decodeMisc_eq_none {x : Reg} {nn : Byte} : decodeMisc x nn.toNat = none ↔
    nn ∉ ([0x07, 0x0A, 0x15, 0x18, 0x1E, 0x29, 0x33, 0x55, 0x65] : List Byte) := by
  unfold decodeMisc
  split
  case h_10 => simp_all [← BitVec.toNat_inj]
  all_goals simp [eq_ofNat_of_toNat_eq ‹nn.toNat = _›]

/-- Settles O5: the arms of the decoder by category, and in each the digits its rows leave out. -/
theorem unrecognizedWords : Obligations.UnrecognizedWords := by
  intro op
  unfold decode
  split
  case h_1 hc => simp [eq_ofNat_of_toNat_eq hc, ite_eq_iff]
  case h_9 hc => simp [decodeAlu_eq_none, eq_ofNat_of_toNat_eq hc]
  case h_15 hc => simp [decodeKey_eq_none, eq_ofNat_of_toNat_eq hc]
  case h_16 =>
    have hc : fieldCat op = 0xF := by
      simp only [imp_false] at *
      bv_omega
    simp [decodeMisc_eq_none, hc]
  all_goals simp [eq_ofNat_of_toNat_eq ‹(fieldCat op).toNat = _›]

/-! ### The opcode map (30_encoding R63, R64) -/

theorem fieldCat_and (a b : Word) : fieldCat (a &&& b) = fieldCat a &&& fieldCat b :=
  BitVec.extractLsb'_and

theorem fieldN_and (a b : Word) : fieldN (a &&& b) = fieldN a &&& fieldN b :=
  BitVec.extractLsb'_and

theorem fieldNn_and (a b : Word) : fieldNn (a &&& b) = fieldNn a &&& fieldNn b :=
  BitVec.extractLsb'_and

/-- The row of the decoded instruction depends on the category, in category 0 on the whole word, in
categories 5, 8 and 9 on the low nibble, in categories E and F on the low byte. -/
theorem row_of_decode_congr {op' : Word} (hcat : fieldCat op = fieldCat op')
    (hword : fieldCat op' = 0x0 → op = op')
    (hn : fieldCat op' ∈ ([0x5, 0x8, 0x9] : List Nibble) → fieldN op = fieldN op')
    (hnn : fieldCat op' ∈ ([0xE, 0xF] : List Nibble) → fieldNn op = fieldNn op') :
    (decode op).map rowOf = (decode op').map rowOf := by
  unfold decode
  rw [hcat]
  split
  case h_1 hc => rw [hword (eq_ofNat_of_toNat_eq hc)]
  case h_6 hc | h_10 hc =>
    rw [hn (by simp [eq_ofNat_of_toNat_eq hc])]
    split <;> rfl
  case h_9 hc =>
    rw [hn (by simp [eq_ofNat_of_toNat_eq hc])]
    unfold decodeAlu
    split <;> rfl
  case h_15 hc =>
    rw [hnn (by simp [eq_ofNat_of_toNat_eq hc])]
    unfold decodeKey
    split <;> rfl
  case h_16 =>
    have hc : fieldCat op' = 0xF := by
      simp only [imp_false] at *
      bv_omega
    rw [hnn (by simp [hc])]
    unfold decodeMisc
    split <;> rfl
  all_goals rfl

section
open Laws.WellFormedWord

/-- A word that a row accepts decodes to an instruction of that row: it has every digit of the row's
value that the decoder asks for, so it decodes as that value does. -/
theorem decode_of_accepts {r : OpcodeRow} (hr : r ∈ opcodeMap) (h : r.accepts op = true) :
    (decode op).map rowOf = some r.row := by
  have hval : op &&& r.mask = r.value := eq_of_beq h
  have hmaskCat : ∀ r ∈ opcodeMap, fieldCat r.mask = 0xF := by decide
  have hmask : ∀ r ∈ opcodeMap, fieldCat r.value = 0x0 → r.mask = 0xFFFF := by decide
  have hmaskN : ∀ r ∈ opcodeMap, fieldCat r.value ∈ ([0x5, 0x8, 0x9] : List Nibble) →
    fieldN r.mask = 0xF := by decide
  have hmaskNn : ∀ r ∈ opcodeMap, fieldCat r.value ∈ ([0xE, 0xF] : List Nibble) →
    fieldNn r.mask = 0xFF := by decide
  have hrow : ∀ r ∈ opcodeMap, (decode r.value).map rowOf = some r.row := by decide
  rw [← hrow r hr]
  apply row_of_decode_congr
  · rw [← hval, fieldCat_and, hmaskCat r hr]
    exact (nibble_and_all _).symm
  · intro hc
    rw [← hval, hmask r hr hc]
    exact BitVec.and_allOnes.symm
  · intro hc
    rw [← hval, fieldN_and, hmaskN r hr hc]
    exact (nibble_and_all _).symm
  · intro hc
    rw [← hval, fieldNn_and, hmaskNn r hr hc]
    exact (byte_and_all _).symm

/-- Every instruction's word is one the opcode map lists. -/
theorem instr_wellFormed (i : Instr) : i.wellFormed = true := by
  cases i
  exacts [cls, ret, jp _, call _, seImm _ _, sneImm _ _, seReg _ _, ldImm _ _, addImm _ _,
    ldReg _ _, orReg _ _, andReg _ _, xorReg _ _, addReg _ _, subReg _ _, shr _ _, subn _ _, shl _ _,
    sneReg _ _, ldI _, jpV0 _, rnd _ _, drw _ _ _, skp _, sknp _, ldFromDt _, ldKey _, ldDt _, ldSt _, addI _,
    ldFont _, ldBcd _, storeRegs _, loadRegs _]

end

theorem mem_matchingRows {k : Nat} :
    k ∈ matchingRows op ↔ ∃ r ∈ opcodeMap, r.accepts op = true ∧ r.row = k := by
  simp [matchingRows, and_assoc]

theorem matchingRows_nodup : (matchingRows op).Nodup :=
  List.Nodup.sublist (List.filter_sublist.map _) (by decide : (opcodeMap.map (·.row)).Nodup)

/-- The rows a word matches are the rows of the instruction it decodes to: each accepting row decodes
to itself, and some row accepts the word of every instruction. -/
theorem mem_matchingRows_iff_decode {k : Nat} :
    k ∈ matchingRows op ↔ (decode op).map rowOf = some k := by
  rw [mem_matchingRows]
  constructor
  · rintro ⟨r, hr, hacc, rfl⟩
    exact decode_of_accepts hr hacc
  · intro hk
    obtain ⟨i, hi, rfl⟩ := Option.map_eq_some_iff.mp hk
    obtain ⟨r, hr, hacc⟩ := List.any_eq_true.mp (instr_wellFormed i)
    rw [encode_of_decode hi] at hacc
    exact ⟨r, hr, hacc, Option.some.inj ((decode_of_accepts hr hacc).symm.trans hk)⟩

/-- Settles O4: a row number is listed exactly if it is that of the decoded instruction, and none is
listed twice. -/
theorem decoderIsTheOpcodeMap : Obligations.DecoderIsTheOpcodeMap := by
  intro op
  have hmem := @mem_matchingRows_iff_decode op
  split
  next i hi =>
    apply List.perm_singleton.mp
    rw [List.perm_ext_iff_of_nodup matchingRows_nodup (List.nodup_singleton _)]
    simp [hmem, hi, eq_comm]
  next hnone =>
    apply List.eq_nil_iff_forall_not_mem.mpr
    simp [hmem, hnone]

end Sys2Proof
end

/-! ## Preconditions and faults (40_step_cycle R83, 60_exceptions) -/

section
namespace Sys2Proof.Machine

variable {s t : State} {i : Instr} {f : Fault}

/-! ### The check of an instruction -/

/-- The check phase of an instruction: the fault its precondition raises in `s`, if any. It is the
computable form of `FaultsWith` (`precondition_eq_some`) and of `Fits` (`precondition_eq_none`). -/
def precondition (s : State) : Instr → Option Fault
  | .ret => if s.sp = 0 then some .stackUnderflow else none
  | .call _ => if s.sp = 15 then some .stackOverflow else none
  | .drw x y n =>
    (s.dataFault n.toNat).or
      (pixelFault (s.spritePixels (s.getV x).toNat (s.getV y).toNat n.toNat))
  | .skp x | .sknp x => s.keyFault x
  | .ldBcd _ => s.dataFault 3
  | .storeRegs x | .loadRegs x => s.dataFault (x.toNat + 1)
  | _ => none

/-- Two checks in order: the fault of the first comes first (60_exceptions D24). -/
theorem guarded_or (f g : Option Fault) (r : Result) :
    guarded (f.or g) r = guarded f (guarded g r) := by
  cases f <;> rfl

/-- Every instruction is its check followed by an effect that cannot stop (40_step_cycle R83, R85). -/
theorem exec_eq_guarded (i : Instr) (s : State) :
    ∃ u, exec i s = guarded (precondition s i) (.next u) := by
  cases i with
  | ret =>
    by_cases hsp : s.sp = 0
    · exact ⟨s, by rw [precondition, if_pos hsp]; exact if_pos hsp⟩
    · exact ⟨_, by rw [precondition, if_neg hsp]; exact if_neg hsp⟩
  | call nnn =>
    by_cases hsp : s.sp = 15
    · exact ⟨s, by rw [precondition, if_pos hsp]; exact if_pos hsp⟩
    · exact ⟨_, by rw [precondition, if_neg hsp]; exact if_neg hsp⟩
  | drw x y n => exact ⟨_, (guarded_or _ _ _).symm⟩
  | ldKey x =>
    simp only [exec, execLdKey, precondition]
    split <;> exact ⟨_, rfl⟩
  | _ => exact ⟨_, rfl⟩

/-! ### What the check gives -/

/-- The framebuffer check passes exactly when no set bit lies outside (44_graphics R152). -/
theorem State.pixelFault_spritePixels_none (s : State) (x y : Reg) (n : Nibble) :
    pixelFault (s.spritePixels (s.getV x).toNat (s.getV y).toNat n.toNat) = none ↔
      SpriteFits s x y n := by
  simp only [pixelFault_none, State.mem_spritePixels]
  constructor
  · intro h r c hr hc hset
    exact Nat.le_of_lt_succ (h _ ⟨r, c, hr, hc, hset, rfl⟩)
  · rintro h j ⟨r, c, hr, hc, hset, rfl⟩
    exact Nat.lt_succ_of_le (h r c hr hc hset)

theorem not_dataFits_succ {k : Nat} : ¬ DataFits s (k + 1) ↔ 4095 < s.i.toNat + k := by
  simp [DataFits]

/-- The check passes exactly when R83's precondition holds. -/
theorem precondition_eq_none : precondition s i = none ↔ Fits s i := by
  cases i with
  | ret =>
    simp only [precondition, Fits, ite_eq_right_iff, reduceCtorEq, imp_false]
    bv_omega
  | call nnn =>
    simp only [precondition, Fits, ite_eq_right_iff, reduceCtorEq, imp_false]
    bv_omega
  | drw x y n =>
    rw [precondition, Option.or_eq_none_iff, s.dataFault_none, s.pixelFault_spritePixels_none]
    rfl
  | skp x | sknp x => exact s.keyFault_none x
  | ldBcd => exact s.dataFault_none 3
  | storeRegs x | loadRegs x => exact s.dataFault_none (x.toNat + 1)
  | _ => simp [precondition, Fits]

/-- The check fails exactly as R83's table says, with that fault. -/
theorem precondition_eq_some : precondition s i = some f ↔ FaultsWith s f i := by
  cases i with
  | ret =>
    simp [precondition, FaultsWith, ← BitVec.toNat_inj, eq_comm]
  | call nnn =>
    simp [precondition, FaultsWith, ← BitVec.toNat_inj, eq_comm]
  | drw x y n =>
    rw [precondition, Option.or_eq_some_iff, s.dataFault_none, s.dataFault_some, s.pixelFault_some]
    rfl
  | skp x | sknp x => exact s.keyFault_some
  | ldBcd x => 
    rw [precondition, s.dataFault_some, not_dataFits_succ]
    rfl
  | storeRegs x | loadRegs x =>
    rw [precondition, s.dataFault_some, not_dataFits_succ]
    rfl
  | _ => simp [precondition, FaultsWith]

/-! ### When an instruction completes and when it faults -/

/-- An instruction completes exactly when its precondition holds. -/
theorem exec_completes_iff : (∃ t, exec i s = .next t) ↔ Fits s i := by
  obtain ⟨u, hu⟩ := exec_eq_guarded i s
  simp [hu, guarded_next, precondition_eq_none]

/-- An instruction faults exactly as R83's table says. -/
theorem exec_fault_iff : exec i s = .fault f ↔ FaultsWith s f i := by
  obtain ⟨u, hu⟩ := exec_eq_guarded i s
  simp [hu, guarded_fault, precondition_eq_some]

/-- No instruction is refused. -/
theorem exec_ne_refused (i : Instr) (s : State) (r : Refusal) : exec i s ≠ .refused r := by
  obtain ⟨u, hu⟩ := exec_eq_guarded i s
  rw [hu]
  cases precondition s i <;> simp [guarded, raise]

/-- Settles O9: every instruction is a check and an effect, and the check passes where R83's
precondition holds. -/
theorem completesExactlyWhenItFits : Obligations.CompletesExactlyWhenItFits :=
  fun _ _ => exec_completes_iff

/-- Settles O10: every instruction is a check and an effect, and the check fails as R83's table
says. -/
theorem faultsExactlyAsTabled : Obligations.FaultsExactlyAsTabled :=
  fun i s => ⟨fun _ => exec_fault_iff, exec_ne_refused i s⟩

/-! ### What a fault does not depend on -/

/-- R83's table reads memory, the registers, I and `sp` only. -/
theorem faultsWith_congr (hmem : t.mem = s.mem) (hv : t.v = s.v) (hi : t.i = s.i)
    (hsp : t.sp = s.sp) : FaultsWith t f i ↔ FaultsWith s f i := by
  obtain ⟨⟩ := s
  obtain ⟨⟩ := t
  cases hmem
  cases hv
  cases hi
  cases hsp
  cases i <;> rfl

/-- Settles O11: R83's table reads neither transient flag. -/
theorem faultsIgnoreTransientFlags : Obligations.FaultsIgnoreTransientFlags := by
  intro i s f
  rw [exec_fault_iff, exec_fault_iff]
  exact faultsWith_congr rfl rfl rfl rfl

/-! ### The faults of a step (60_exceptions section 3) -/

/-- The step runs the instruction its word decodes to (40_step_cycle R80). -/
theorem step_eq_of_executes (hx : Executes s i) : step s = afterExec (exec i s.clearFlags) := by
  obtain ⟨hpc, hdecode⟩ := hx
  have hfetch : s.fetch = .ok s.wordAtPc := State.fetch_ok.mpr ⟨hpc, rfl⟩
  simp [step, cycleWith, hfetch, hdecode]

/-- The step at a word that decodes to nothing (40_step_cycle R82). -/
theorem step_eq_of_decode_none {op : Word} (hword : s.wordAtPc = op) (hnone : decode op = none)
    (hpc : s.pc.toNat ≤ 4094) : step s = .fault (.unknownOpcode op) := by
  have hfetch : s.fetch = .ok op := State.fetch_ok.mpr ⟨hpc, hword.symm⟩
  simp [step, cycleWith, hfetch, hnone, raise]

/-- Settles O6: the three phases around the instruction, for each of its outcomes. -/
theorem stepRunsDecodedInstruction : Obligations.StepRunsDecodedInstruction := by
  intro s i hx
  rw [step_eq_of_executes hx]
  cases exec i s.clearFlags <;> rfl

theorem afterExec_fault {r : Result} : afterExec r = .fault f ↔ r = .fault f := by
  cases r <;> simp [afterExec, raise]

/-- The fault of a step, by the three places it can come from, in their order. -/
theorem step_fault_iff : step s = .fault f ↔
    (4095 ≤ s.pc.toNat ∧ f = .outOfBounds .fetch s.pc.toNat) ∨
    (s.pc.toNat ≤ 4094 ∧ decode s.wordAtPc = none ∧ f = .unknownOpcode s.wordAtPc) ∨
    (∃ i, Executes s i ∧ exec i s = .fault f) := by
  by_cases hpc : 4095 ≤ s.pc.toNat
  · have hpc' : ¬ s.pc.toNat ≤ 4094 := by omega
    simp [step_fault_of_pc_ge hpc, hpc, hpc', Executes, eq_comm]
  · have hpc' : s.pc.toNat ≤ 4094 := by omega
    cases hd : decode s.wordAtPc with
    | none => simp [step_eq_of_decode_none rfl hd hpc', hpc, hpc', hd, Executes, eq_comm]
    | some i =>
      rw [step_eq_of_executes ⟨hpc', hd⟩, afterExec_fault, faultsIgnoreTransientFlags]
      simp [hpc, hpc', hd, Executes]

/-- Settles O7: the fetch, then the decode, then the precondition, which does not read the flags the
step has cleared by then. -/
theorem stepFaultsInOrder : Obligations.StepFaultsInOrder :=
  fun _ _ => step_fault_iff

/-- A fault of a step depends on memory, the registers, I, `pc` and `sp` only, so not on the keypad and
not on the draws (60_exceptions R184). -/
theorem step_fault_congr (hmem : t.mem = s.mem) (hv : t.v = s.v) (hi : t.i = s.i)
    (hpc : t.pc = s.pc) (hsp : t.sp = s.sp) : step t = .fault f ↔ step s = .fault f := by
  simp only [step_fault_iff, Executes, State.wordAtPc, exec_fault_iff, hmem, hpc,
    faultsWith_congr hmem hv hi hsp]

/-- Settles O8: the driver sees the state before the step, and neither a keypad write nor a draw
touches what the fault depends on. -/
theorem faultingStepChangesNothing : Obligations.FaultingStepChangesNothing := by
  intro s f h
  refine ⟨by simp [State.invoke, h], fun n keys script => ?_⟩
  let t := { s with draws := n }.driveKeypad keys
  have hagain : step t = .fault f :=
    (step_fault_congr (s := s) (t := t) rfl rfl rfl rfl rfl).mpr h
  exact ⟨hagain, by simp [drivenRun, t, hagain]⟩

end Sys2Proof.Machine
end

/-! ## What instructions and steps may write (10_state R10) -/

section
namespace Sys2Proof.Machine

variable {s t : State} {i : Instr} {x : Reg}

/-- Settles O44: the frame of every instruction. -/
theorem onlyListedWritersWrite : Obligations.OnlyListedWritersWrite :=
  fun _ _ _ => exec_sameOutside_mayWrite

/-- What an instruction may write does not depend on the transient flags. -/
theorem mayWrite_clearFlags {e : Elem} : MayWrite s.clearFlags i e ↔ MayWrite s i e := by
  cases e <;> cases i <;> rfl

/-- Settles O45: around its instruction a step writes the transient flags and the timers only. -/
theorem stepWritesOnlyListedElements : Obligations.StepWritesOnlyListedElements := by
  intro i s t hx h e he
  obtain ⟨u, hu, rfl⟩ := step_next_of_executes hx h
  simp only [List.mem_cons, List.not_mem_nil, or_false, not_or] at he
  obtain ⟨hwrite, hdt, hst, hredraw, hsound⟩ := he
  calc u.tick.elem e = u.elem e := u.elem_tick e hdt hst hsound
    _ = s.clearFlags.elem e := exec_sameOutside_mayWrite hu e (mt mayWrite_clearFlags.mp hwrite)
    _ = s.elem e := by simp [State.elem_clearFlags, hredraw, hsound]

/-- Only Annn, Fx1E and Fx29 write I (10_state R14): the frame at that element. -/
theorem exec_i_of_not_mayWrite (hi : ¬ MayWrite s i .addrReg) (h : exec i s = .next t) :
    t.i = s.i :=
  BitVec.eq_of_toNat_eq (exec_sameOutside_mayWrite h .addrReg hi)

/-- Settles O46: the three writes of I, and the frame of the other instructions at I. -/
theorem onlyThreeInstructionsWriteI : Obligations.OnlyThreeInstructionsWriteI := by
  refine ⟨fun i s t h => ?_, rfl⟩
  split
  next nnn =>
    cases h
    exact toNat_zextAddr nnn
  next x =>
    cases h
    exact toNat_add_zextByte s.i (s.getV x)
  next x =>
    cases h
    exact toNat_zextByte_mul_five (s.getV x)
  next hload hadd hfont =>
    rw [exec_i_of_not_mayWrite ?_ h]
    rintro (⟨nnn, rfl⟩ | ⟨x, rfl⟩ | ⟨x, rfl⟩)
    · exact hload nnn rfl
    · exact hadd x rfl
    · exact hfont x rfl

end Sys2Proof.Machine
end

/-! ## The transient flags (10_state section 3) -/

section
namespace Sys2Proof.Machine

variable {s t : State} {i : Instr} {x : Reg}

theorem bool_eq_of_toNat_eq : ∀ {a b : Bool}, a.toNat = b.toNat → a = b := by decide

/-- 00E0 and Dxyn set `redraw_pending` (44_graphics R151, R152). -/
theorem exec_redrawPending_of_setsRedraw (hi : setsRedraw i = true) (h : exec i s = .next t) :
    t.redrawPending = true := by
  cases i with
  | cls =>
    cases h
    rfl
  | drw x y n =>
    obtain ⟨-, h⟩ := guarded_next.mp h
    obtain ⟨-, h⟩ := guarded_next.mp h
    cases h
    rfl
  | _ => cases hi

/-- Every other instruction leaves `redraw_pending`: the frame at that element. -/
theorem exec_redrawPending_of_not_setsRedraw (hi : setsRedraw i = false) (h : exec i s = .next t) :
    t.redrawPending = s.redrawPending :=
  bool_eq_of_toNat_eq (exec_sameOutside_mayWrite h .redraw (by simp [MayWrite, hi]))

/-- No instruction writes `sound_pending`: the frame at that element. -/
theorem exec_soundPending (h : exec i s = .next t) : t.soundPending = s.soundPending :=
  bool_eq_of_toNat_eq (exec_sameOutside_mayWrite h .sound id)

/-- The write of Fx18 (45_keypad_timers R165). -/
theorem exec_ldSt_st (h : exec (.ldSt x) s = .next t) : t.st = s.getV x := by
  cases h
  rfl

/-- Only Fx18 writes ST (10_state R18): the frame at that element. -/
theorem exec_st_of_ne_ldSt (hi : ∀ x, i ≠ .ldSt x) (h : exec i s = .next t) : t.st = s.st :=
  BitVec.eq_of_toNat_eq (exec_sameOutside_mayWrite h .soundTimer fun ⟨x, hx⟩ => hi x hx)

/-- After an instruction that ran on cleared flags, `redraw_pending` is 1 exactly if it is one of the
two that set it (10_state R19). -/
theorem exec_clearFlags_redrawPending (h : exec i s.clearFlags = .next t) :
    t.redrawPending = setsRedraw i := by
  cases hi : setsRedraw i with
  | true => exact exec_redrawPending_of_setsRedraw hi h
  | false => exact exec_redrawPending_of_not_setsRedraw hi h

/-- ST as an instruction leaves it (10_state R18). -/
theorem exec_st : exec i s = .next t →
    t.st.toNat = match i with
      | .ldSt x => (s.getV x).toNat
      | _ => s.st.toNat := by
  intro h
  split
  next x => rw [exec_ldSt_st h]
  next hi => rw [exec_st_of_ne_ldSt hi h]

/-- Settles O13: a step clears both flags first and no instruction reads them; 00E0 and Dxyn set the
one, the tick sets the other. -/
theorem transientFlagsAfterStep : Obligations.TransientFlagsAfterStep := by
  refine ⟨fun s t i hx h => ?step, fun s a b => rfl, fun s f h => ?fault, rfl, rfl⟩
  case step =>
    obtain ⟨u, hu, rfl⟩ := step_next_of_executes hx h
    have hst := exec_st hu
    have hsound := exec_soundPending hu
    refine ⟨u.tick_redrawPending.trans (exec_clearFlags_redrawPending hu), ?_, ?_⟩
    · rw [u.tick_soundPending, hsound, State.clearFlags_soundPending, Bool.or_false, hst]
      rfl
    · rw [u.tick_st, hst]
      rfl
  case fault => simp [State.invoke, h]

end Sys2Proof.Machine
end

/-! ## Who reads the keypad and the draws (40_step_cycle R89) -/

section
namespace Sys2Proof.Machine

variable {s t : State} {i : Instr} (k : Vector Bool 16 → Vector Bool 16) (d : Nat → Nat)

/-- A change of the two inputs a step has beside the rest of the state: the keypad and the draw counter.
`driveKeypad` is one (`driveKeypad_eq_mapInputs`) and `nextDraw` is one (`nextDraw_eq_mapInputs`). -/
def State.mapInputs (s : State) : State := { s with keypad := k s.keypad, draws := d s.draws }

theorem State.driveKeypad_eq_mapInputs (s : State) (keys : Vector Bool 16) :
    s.driveKeypad keys = s.mapInputs (fun _ => keys) id := rfl

theorem State.nextDraw_eq_mapInputs (s : State) : s.nextDraw = s.mapInputs id (· + 1) := rfl

theorem State.mapInputs_drawPixel (s : State) (j : Nat) :
    (s.mapInputs k d).drawPixel j = (s.drawPixel j).mapInputs k d := by
  unfold State.drawPixel State.togglePixel
  have hpixel : (s.mapInputs k d).pixel j = s.pixel j := rfl
  rw [hpixel]
  split <;> split <;> rfl

theorem State.mapInputs_foldl_drawPixel (js : List Nat) (s : State) :
    js.foldl State.drawPixel (s.mapInputs k d) = (js.foldl State.drawPixel s).mapInputs k d :=
  List.foldl_hom (State.mapInputs k d) fun s j => s.mapInputs_drawPixel k d j

theorem State.mapInputs_loadFrom (s : State) (base count : Nat) :
    (s.mapInputs k d).loadFrom base count = (s.loadFrom base count).mapInputs k d := by
  induction count with
  | zero => rfl
  | succ n ih =>
    simp only [State.loadFrom, ih]
    rfl

/-- An instruction that reads neither input and completes leaves the same state whatever they hold. -/
theorem exec_mapInputs_of_next (hkey : ∀ x, i ≠ .skp x ∧ i ≠ .sknp x ∧ i ≠ .ldKey x)
    (hrnd : ∀ x nn, i ≠ .rnd x nn) (h : exec i s = .next t) :
    exec i (s.mapInputs k d) = .next (t.mapInputs k d) := by
  cases i with
  | skp x => exact absurd rfl (hkey x).1
  | sknp x => exact absurd rfl (hkey x).2.1
  | ldKey x => exact absurd rfl (hkey x).2.2
  | rnd x nn => exact absurd rfl (hrnd x nn)
  | ret =>
    obtain ⟨hsp, rfl⟩ := execRet_next h
    exact exec_ret_of_sp_ne_zero hsp
  | call nnn =>
    obtain ⟨hsp, rfl⟩ := execCall_next h
    exact if_neg hsp
  | drw x y n =>
    obtain ⟨hdata, h⟩ := guarded_next.mp h
    obtain ⟨hfit, h⟩ := guarded_next.mp h
    cases h
    refine guarded_next.mpr ⟨hdata, guarded_next.mpr ⟨hfit, ?_⟩⟩
    exact congrArg (fun u : State => (.next ((u.setRedraw true).advance 2) : Result))
      (State.mapInputs_foldl_drawPixel k d _ (s.setV VF 0))
  | loadRegs x =>
    obtain ⟨hdata, h⟩ := guarded_next.mp h
    cases h
    refine guarded_next.mpr ⟨hdata, ?_⟩
    exact congrArg (fun u : State => (.next (u.advance 2) : Result)) (s.mapInputs_loadFrom k d _ _)
  | ldBcd | storeRegs =>
    obtain ⟨hdata, h⟩ := guarded_next.mp h
    cases h
    exact guarded_next.mpr ⟨hdata, rfl⟩
  | _ =>
    cases h
    rfl

/-- Only completing results are changed by `mapNext`, so it is enough to agree on them, for a change of
state that no fault depends on. -/
theorem exec_eq_mapNext {g : State → State} (hfault : ∀ f, FaultsWith (g s) f i ↔ FaultsWith s f i)
    (hnext : ∀ t, exec i s = .next t → exec i (g s) = .next (g t)) :
    exec i (g s) = mapNext g (exec i s) := by
  cases h : exec i s with
  | next t => exact hnext t h
  | fault f => exact exec_fault_iff.mpr ((hfault f).mpr (exec_fault_iff.mp h))
  | refused r => exact absurd h (exec_ne_refused i s r)

/-- Settles O47: a keypad write and a consumed draw are changes of the inputs, which no fault depends
on; Cxnn does not read the keypad, and Ex9E and ExA1 do not read the draws. -/
theorem othersIgnoreKeypadAndDraws : Obligations.OthersIgnoreKeypadAndDraws := by
  refine fun i s => ⟨fun hi keys => ?keypad, fun hi => ?draws⟩
  case keypad =>
    have hfault : ∀ f, FaultsWith (s.driveKeypad keys) f i ↔ FaultsWith s f i :=
      fun f => faultsWith_congr rfl rfl rfl rfl
    refine exec_eq_mapNext (g := (·.driveKeypad keys)) hfault fun t h => ?_
    by_cases hrnd : ∃ x nn, i = .rnd x nn
    · obtain ⟨x, nn, rfl⟩ := hrnd
      cases h
      rfl
    · simp only [State.driveKeypad_eq_mapInputs]
      exact exec_mapInputs_of_next _ _ hi (fun x nn hx => hrnd ⟨x, nn, hx⟩) h
  case draws =>
    have hfault : ∀ f, FaultsWith s.nextDraw f i ↔ FaultsWith s f i :=
      fun f => faultsWith_congr rfl rfl rfl rfl
    refine exec_eq_mapNext (g := State.nextDraw) hfault fun t h => ?_
    by_cases hskip : ∃ x, i = .skp x ∨ i = .sknp x
    · obtain ⟨x, rfl | rfl⟩ := hskip <;>
      · obtain ⟨hkey, h⟩ := guarded_next.mp h
        cases h
        exact guarded_next.mpr ⟨hkey, rfl⟩
    · have hkey (x : Reg) : i ≠ .skp x ∧ i ≠ .sknp x ∧ i ≠ .ldKey x :=
        ⟨fun hx => hskip ⟨x, .inl hx⟩, fun hx => hskip ⟨x, .inr hx⟩, (hi x 0).2⟩
      simp only [State.nextDraw_eq_mapInputs]
      exact exec_mapInputs_of_next _ _ hkey (fun x nn => (hi x nn).1) h

end Sys2Proof.Machine
end

/-! ## The invariant of reachable states (10_state R28) -/

section
namespace Sys2Proof.Machine

variable {s t : State} {i : Instr}

/-! ### Memory stays canonical -/

/-- An instruction leaves memory or stores consecutive bytes in it (20_memory R43). -/
theorem exec_mem (h : exec i s = .next t) :
    t.mem = s.mem ∨ ∃ a ws, t.mem = s.mem.writeBytes a ws := by
  cases i with
  | ret =>
    obtain ⟨-, rfl⟩ := execRet_next h
    exact .inl rfl
  | call nnn =>
    obtain ⟨-, rfl⟩ := execCall_next h
    exact .inl rfl
  | ldKey x =>
    obtain rfl | ⟨b, rfl | rfl⟩ := execLdKey_next h <;> exact .inl rfl
  | drw x y n =>
    obtain ⟨-, h⟩ := guarded_next.mp h
    obtain ⟨-, h⟩ := guarded_next.mp h
    cases h
    exact .inl (State.foldl_drawPixel_mem _ _)
  | loadRegs x =>
    obtain ⟨-, h⟩ := guarded_next.mp h
    cases h
    exact .inl (s.loadFrom_mem _ _)
  | skp | sknp =>
    obtain ⟨-, h⟩ := guarded_next.mp h
    cases h
    exact .inl rfl
  | ldBcd | storeRegs =>
    obtain ⟨-, h⟩ := guarded_next.mp h
    cases h
    exact .inr ⟨_, _, rfl⟩
  | _ =>
    cases h
    exact .inl rfl

/-- Every instruction keeps the canonical form of memory. -/
theorem exec_mem_wf (hwf : s.mem.wf = true) (h : exec i s = .next t) : t.mem.wf = true := by
  obtain hmem | ⟨a, ws, hmem⟩ := exec_mem h
  · rwa [hmem]
  · rw [hmem]
    exact Memory.wf_writeBytes hwf a ws

/-! ### The stack -/

/-- A stack slot the instruction does not write: the frame at that element. -/
theorem exec_getSlot_of_not_mayWrite {k : BitVec 4} (hk : ¬ MayWrite s i (.slot k))
    (h : exec i s = .next t) : t.getSlot k = s.getSlot k :=
  BitVec.eq_of_toNat_eq (exec_sameOutside_mayWrite h (.slot k) hk)

/-- `stack[0]` is above no `sp`, so no call writes it (10_state R15, R28). -/
theorem exec_getSlot_zero (h : exec i s = .next t) : t.getSlot 0 = s.getSlot 0 :=
  exec_getSlot_of_not_mayWrite (fun ⟨_, hk⟩ => absurd hk (by simp)) h

/-- A call raises `sp` by one; every other instruction leaves it or lowers it (10_state R16). -/
theorem exec_sp_le (hi : ∀ nnn, i ≠ .call nnn) (h : exec i s = .next t) :
    t.sp.toNat ≤ s.sp.toNat := by
  by_cases hret : i = .ret
  · subst hret
    obtain ⟨hsp, rfl⟩ := execRet_next h
    simp only [State.advance_sp, State.setSp_sp]
    bv_omega
  · refine (exec_sameOutside_mayWrite h .sp ?_).le
    rintro (hx | ⟨nnn, hx⟩)
    · exact hret hx
    · exact hi nnn hx

/-- Every live slot holds an address a call can be fetched from (10_state R28). -/
def LiveSlotsFetchable (s : State) : Prop :=
  ∀ k : BitVec 4, 1 ≤ k.toNat → k.toNat ≤ s.sp.toNat → (s.getSlot k).toNat ≤ 4094

/-- An instruction that was fetched keeps the live slots: a call adds its own `pc`, every other
instruction adds none and changes none. -/
theorem exec_liveSlotsFetchable (hpc : s.pc.toNat ≤ 4094) (hlive : LiveSlotsFetchable s)
    (h : exec i s = .next t) : LiveSlotsFetchable t := by
  intro k hk1 hk
  by_cases hi : ∃ nnn, i = .call nnn
  · obtain ⟨nnn, rfl⟩ := hi
    by_cases htop : k = t.sp
    · rw [htop, exec_call_topSlot h]
      exact hpc
    · obtain ⟨hsp, rfl⟩ := execCall_next h
      have hframe : ¬ MayWrite s (.call nnn) (.slot k) := by
        rintro ⟨-, hk'⟩
        exact htop (by simp only [State.setPc_sp, State.setSlot_sp, State.setSp_sp]; bv_omega)
      rw [exec_getSlot_of_not_mayWrite hframe h]
      simp only [State.setPc_sp, State.setSlot_sp, State.setSp_sp] at hk htop
      exact hlive k hk1 (by bv_omega)
  · rw [exec_getSlot_of_not_mayWrite (fun hw => hi hw.1) h]
    exact hlive k hk1 (hk.trans (exec_sp_le (fun nnn hx => hi ⟨nnn, hx⟩) h))

/-! ### Steps, the driver and runs -/

/-- The invariant reads memory, the stack and `sp` only. -/
theorem reachInv_congr (hmem : t.mem = s.mem) (hstack : t.stack = s.stack) (hsp : t.sp = s.sp) :
    ReachInv t ↔ ReachInv s := by
  simp only [ReachInv, State.getSlot, hmem, hstack, hsp]

/-- An instruction that was fetched keeps the invariant. -/
theorem exec_reachInv (hpc : s.pc.toNat ≤ 4094) (hinv : ReachInv s) (h : exec i s = .next t) :
    ReachInv t := by
  obtain ⟨hwf, hzero, hlive⟩ := hinv
  exact ⟨exec_mem_wf hwf h, (exec_getSlot_zero h).trans hzero, exec_liveSlotsFetchable hpc hlive h⟩

/-- A step that completes keeps the invariant: the flag clear and the tick touch nothing of it. -/
theorem step_reachInv (hinv : ReachInv s) (h : step s = .next t) : ReachInv t := by
  obtain ⟨hpc, i, -, u, hu, rfl⟩ := step_next.mp h
  have hclear : ReachInv s.clearFlags := (reachInv_congr (s := s) rfl rfl rfl).mpr hinv
  have hexec : ReachInv u := exec_reachInv (s := s.clearFlags) hpc hclear hu
  exact (reachInv_congr u.tick_mem u.tick_stack u.tick_sp).mpr hexec

theorem driveKeypad_reachInv (keys : Vector Bool 16) (hinv : ReachInv s) :
    ReachInv (s.driveKeypad keys) :=
  (reachInv_congr (s := s) rfl rfl rfl).mpr hinv

/-- Settles O48: memory, `stack[0]` and the live slots, each kept by every instruction. -/
theorem everyStepKeepsTheInvariant : Obligations.EveryStepKeepsTheInvariant :=
  ⟨fun _ _ => step_reachInv, fun _ keys => driveKeypad_reachInv keys⟩

/-- At reset the stack is empty, so memory alone is left to check. -/
theorem reachInv_reset_of_wf {m : Memory} (hwf : m.wf = true) :
    ReachInv { State.reset with mem := m } := by
  refine ⟨hwf, rfl, fun k hk1 hk => ?_⟩
  have hk0 : k.toNat ≤ 0 := hk
  omega

theorem resetWith_reachInv {font : FontTable} {image : List Byte}
    (h : State.resetWith font image = .ok s) : ReachInv s := by
  obtain ⟨-, rfl⟩ := State.resetWith_ok.mp h
  exact reachInv_reset_of_wf (resetMemory_wf font image)

/-- Settles O49: the stack is empty and memory is canonical, with no byte listed or with the font and
the image written. -/
theorem resetMeetsTheInvariant : Obligations.ResetMeetsTheInvariant :=
  ⟨reachInv_reset_of_wf (m := []) rfl, fun _ _ _ => resetWith_reachInv⟩

/-- Any run under a driver's script keeps the invariant. -/
theorem drivenRun_reachInv {script : List (Vector Bool 16)} (hinv : ReachInv s)
    (h : drivenRun script s = .next t) : ReachInv t := by
  induction script generalizing s with
  | nil =>
    cases h
    exact hinv
  | cons keys script ih =>
    unfold drivenRun at h
    split at h
    next u hu => exact ih (step_reachInv (driveKeypad_reachInv keys hinv) hu) h
    next => cases h
    next => cases h

/-- Settles O50: by induction on the script, from the reset state. -/
theorem everyDrivenRunKeepsTheInvariant : Obligations.EveryDrivenRunKeepsTheInvariant :=
  fun _ _ _ _ _ hreset => drivenRun_reachInv (resetWith_reachInv hreset)

end Sys2Proof.Machine
end

/-! ## The elements are the whole state (10_state section 1) -/

section
namespace Sys2Proof.Machine

variable {s t : State}

theorem v_ext (h : ∀ x, s.getV x = t.getV x) : s.v = t.v :=
  Vector.ext fun k hk => by simpa [State.getV, Nat.mod_eq_of_lt hk] using h (BitVec.ofNat 4 k)

theorem stack_ext (h : ∀ k, s.getSlot k = t.getSlot k) : s.stack = t.stack :=
  Vector.ext fun k hk => by simpa [State.getSlot, Nat.mod_eq_of_lt hk] using h (BitVec.ofNat 4 k)

theorem keypad_ext (h : ∀ k, s.key k = t.key k) : s.keypad = t.keypad :=
  Vector.ext fun k hk => by simpa [State.key, Nat.mod_eq_of_lt hk] using h (BitVec.ofNat 4 k)

/-- Bit `c` of row `r` of the framebuffer is the pixel `c + 64 r` (44_graphics R150). -/
theorem fb_ext (h : ∀ j, s.pixel j = t.pixel j) : s.fb = t.fb := by
  refine Vector.ext fun r hr => BitVec.eq_of_getLsbD_eq fun c hc => ?_
  have hrow : (64 * r + c) / 64 = r := by omega
  have hcol : (64 * r + c) % 64 = c := by omega
  simpa [State.pixel, hrow, hcol, hr] using h (64 * r + c)

/-- Settles O51: field by field; a canonical memory is determined by its bytes. -/
theorem elementsDetermineTheState : Obligations.ElementsDetermineTheState := by
  intro s t hs ht h
  have hmem : s.mem = t.mem :=
    Memory.ext_of_wfFrom hs ht fun a => BitVec.eq_of_toNat_eq (h (.byte a))
  have hv : s.v = t.v := v_ext fun x => BitVec.eq_of_toNat_eq (h (.reg x))
  have hi : s.i = t.i := BitVec.eq_of_toNat_eq (h .addrReg)
  have hpc : s.pc = t.pc := BitVec.eq_of_toNat_eq (h .pc)
  have hstack : s.stack = t.stack := stack_ext fun k => BitVec.eq_of_toNat_eq (h (.slot k))
  have hsp : s.sp = t.sp := BitVec.eq_of_toNat_eq (h .sp)
  have hkeypad : s.keypad = t.keypad := keypad_ext fun k => bool_eq_of_toNat_eq (h (.key k))
  have hfb : s.fb = t.fb := fb_ext fun j => bool_eq_of_toNat_eq (h (.pixel j))
  have hdt : s.dt = t.dt := BitVec.eq_of_toNat_eq (h .delayTimer)
  have hst : s.st = t.st := BitVec.eq_of_toNat_eq (h .soundTimer)
  have hredraw : s.redrawPending = t.redrawPending := bool_eq_of_toNat_eq (h .redraw)
  have hsound : s.soundPending = t.soundPending := bool_eq_of_toNat_eq (h .sound)
  have hdraws : s.draws = t.draws := h .draws
  obtain ⟨⟩ := s
  obtain ⟨⟩ := t
  simp_all only

end Sys2Proof.Machine
end

/-! ## Calls, returns, keys and draws, one instruction at a time -/

section
namespace Sys2Proof.Machine

variable {s t : State} {i : Instr} {x : Reg}

/-- An instruction changes nothing outside a list of elements that covers what it may write. -/
theorem exec_sameExcept {es : List Elem} (h : exec i s = .next t)
    (hes : ∀ e, MayWrite s i e → e ∈ es) : SameExcept es s t :=
  fun e he => exec_sameOutside_mayWrite h e (mt (hes e) he)

/-! ### The stack (41_control_flow) -/

/-- The elements R10 lets 2nnn write: `pc`, `sp` and the slot above `sp`. -/
theorem mayWrite_call {nnn : Addr12} {e : Elem} (h : MayWrite s (.call nnn) e) :
    e = .pc ∨ e = .sp ∨ ∃ k, e = .slot k ∧ k.toNat = s.sp.toNat + 1 := by
  cases e with
  | pc => exact .inl rfl
  | sp => exact .inr (.inl rfl)
  | slot k => exact .inr (.inr ⟨k, rfl, h.2⟩)
  | _ => simp [MayWrite, WritesReg, WritesByte, WritesPixel, setsRedraw] at h

/-- The elements R10 lets 00EE write: `pc` and `sp`. -/
theorem mayWrite_ret {e : Elem} (h : MayWrite s .ret e) : e = .pc ∨ e = .sp := by
  cases e with
  | pc => exact .inl rfl
  | sp => exact .inr rfl
  | _ => simp [MayWrite, WritesReg, WritesByte, WritesPixel, setsRedraw] at h

/-- A completed call raises `sp` by one, and it does not wrap (41_control_flow R103). -/
theorem exec_call_sp {nnn : Addr12} (h : exec (.call nnn) s = .next t) :
    t.sp.toNat = s.sp.toNat + 1 := by
  obtain ⟨hsp, rfl⟩ := execCall_next h
  simp only [State.setPc_sp, State.setSlot_sp, State.setSp_sp]
  bv_omega

/-- Settles O15: the call completes below a full stack and writes the slot it has raised `sp` to. -/
theorem callPushesItsOwnPc : Obligations.CallPushesItsOwnPc := by
  refine fun nnn s => ⟨fun hsp => ?_, fun hsp => exec_fault_iff.mpr ⟨hsp, rfl⟩⟩
  obtain ⟨t, h⟩ := exec_completes_iff.mpr (show Fits s (.call nnn) from hsp)
  have htop := exec_call_sp h
  refine ⟨t, h, htop, exec_call_topSlot h, exec_pcPolicy h, exec_sameExcept h fun e he => ?_⟩
  obtain rfl | rfl | ⟨k, rfl, hk⟩ := mayWrite_call he
  · simp
  · simp
  · have hk' : k = t.sp := BitVec.eq_of_toNat_eq (hk.trans htop.symm)
    simp [hk']

/-- Settles O16: the return completes above an empty stack and writes `pc` and `sp` only. -/
theorem returnPopsAndAddsTwo : Obligations.ReturnPopsAndAddsTwo := by
  refine fun s => ⟨fun hsp => ?_, fun hsp => exec_fault_iff.mpr ⟨hsp, rfl⟩⟩
  have hne : s.sp ≠ 0 := by bv_omega
  have h := exec_ret_of_sp_ne_zero hne
  refine ⟨_, h, rfl, ?_, exec_sameExcept h fun e he => by simpa using mayWrite_ret he⟩
  simp only [State.advance_sp, State.setSp_sp]
  bv_omega

/-! ### Cxnn (42_load_arith_logic R131) -/

/-- The elements R10 lets Cxnn and Fx0A write: `pc`, `V[x]` and the draw counter. -/
theorem mayWrite_rnd_or_ldKey {nn : Byte} {e : Elem} (hi : i = .rnd x nn ∨ i = .ldKey x)
    (h : MayWrite s i e) : e ∈ ([.pc, .reg x, .draws] : List Elem) := by
  obtain rfl | rfl := hi <;>
    cases e <;> simp_all [MayWrite, WritesReg, WritesByte, WritesPixel, setsRedraw]

/-- A mask bit that is 0 makes the bit of the result 0, and the mask 0 the whole result. -/
theorem and_mask (b nn : Byte) :
    (∀ k, nn.getLsbD k = false → (b &&& nn).getLsbD k = false) ∧ (nn = 0 → b &&& nn = 0) := by
  refine ⟨fun k hk => by simp [hk], ?_⟩
  rintro rfl
  exact BitVec.and_zero

/-- Settles O27: one register write, of a masked draw. -/
theorem randomByteIsMasked : Obligations.RandomByteIsMasked := by
  intro x nn s
  have h : exec (.rnd x nn) s = .next ((s.nextDraw.setV x (s.rndByte &&& nn)).advance 2) := rfl
  refine ⟨_, h, ?_⟩
  have hx : ((s.nextDraw.setV x (s.rndByte &&& nn)).advance 2).getV x = s.rndByte &&& nn := by simp
  rw [hx]
  exact ⟨rfl, rfl, rfl, exec_sameExcept h fun e => mayWrite_rnd_or_ldKey (.inl rfl), and_mask _ nn⟩

/-! ### Ex9E, ExA1 (45_keypad_timers R160, R161) -/

/-- The key of a register that holds a key number. -/
theorem keyOf_of_toNat_eq {k : BitVec 4} (hk : (s.getV x).toNat = k.toNat) :
    s.keyOf x = s.key k := by
  have hkey : (s.getV x).setWidth 4 = k := BitVec.eq_of_toNat_eq (by simp [hk, k.isLt])
  rw [State.keyOf, hkey]

/-- Settles O39: both are skips on the key the register numbers, behind the check that it exists. -/
theorem skipOnKey : Obligations.SkipOnKey := by
  refine fun x s => ⟨fun k hk => ?keyExists, fun hx => ?noKey⟩
  case keyExists =>
    have hfit : s.keyFault x = none := (s.keyFault_none x).mpr (by omega)
    have hkey : s.keyOf x = s.key k := keyOf_of_toNat_eq hk
    refine ⟨exec_skip (b := s.keyOf x) (by rw [hkey]) ?_,
      exec_skip (b := !s.keyOf x) (by simp [hkey]) ?_⟩
    · exact guarded_next.mpr ⟨hfit, rfl⟩
    · exact guarded_next.mpr ⟨hfit, rfl⟩
  case noKey => exact ⟨exec_fault_iff.mpr ⟨hx, rfl⟩, exec_fault_iff.mpr ⟨hx, rfl⟩⟩

/-! ### Fx0A (45_keypad_timers R163) -/

theorem State.pressedKeys_nodup (s : State) : s.pressedKeys.Nodup :=
  List.Nodup.filter _ (by decide : ((List.range 16).map (BitVec.ofNat 4)).Nodup)

theorem exec_ldKey_of_none (hnone : ∀ k, s.key k = false) : exec (.ldKey x) s = .next s := by
  simp [exec, execLdKey, State.pressedKeys_eq_nil.mpr hnone]

/-- Fx0A with some key pressed reports a pressed key and goes on, and it consumes a draw only if there
is a choice. -/
theorem exec_ldKey_of_pressed (hpressed : ∃ k, s.key k = true) :
    ∃ t k, exec (.ldKey x) s = .next t ∧ s.key k = true ∧ t.getV x = k.setWidth 8 ∧
      t.pc = s.pc + 2 ∧
      ((∀ j j', s.key j = true → s.key j' = true → j = j') → t.draws = s.draws) := by
  have hmem := s.mem_pressedKeys
  have hnodup := s.pressedKeys_nodup
  simp only [exec, execLdKey]
  match hkeys : s.pressedKeys with
  | [] =>
    obtain ⟨k, hk⟩ := hpressed
    exact absurd ((hmem k).mpr hk) (by simp [hkeys])
  | [k] =>
    refine ⟨_, k, rfl, ?_, by simp, rfl, fun _ => rfl⟩
    exact (hmem k).mp (by simp [hkeys])
  | k :: k' :: ks =>
    have hchosen : s.chosenKey k (k' :: ks) ∈ s.pressedKeys := by
      rw [hkeys]
      exact s.chosenKey_mem k (k' :: ks)
    refine ⟨_, s.chosenKey k (k' :: ks), rfl, (hmem _).mp hchosen, by simp, rfl, fun hone => ?_⟩
    have hk : s.key k = true := (hmem k).mp (by simp [hkeys])
    have hk' : s.key k' = true := (hmem k').mp (by simp [hkeys])
    have hsame : k = k' := hone k k' hk hk'
    simp [hkeys, hsame] at hnodup

/-- Settles O41: the scan finds no key, one, or a choice of several. -/
theorem waitForKey : Obligations.WaitForKey := by
  refine fun x s => ⟨exec_ldKey_of_none, fun hpressed => ?_⟩
  obtain ⟨t, k, h, hk, hx, hpc, hdraws⟩ := exec_ldKey_of_pressed hpressed
  refine ⟨t, k, h, hk, ?_, hpc, exec_sameExcept h fun e => ?_, hdraws⟩
  case refine_2 => exact mayWrite_rnd_or_ldKey (nn := 0) (.inr rfl)
  rw [hx]
  exact BitVec.toNat_setWidth_of_le (by decide)

end Sys2Proof.Machine
end

/-! ## Arithmetic with a flag (42_load_arith_logic R126 to R130, R133) -/

section
namespace Sys2Proof.Machine

variable {s : State} {i : Instr} {x y : Reg}

/-- What an instruction that writes a flag and then its result leaves, in all four register cases: the
result is computed from the registers as the flag left them (D15). -/
theorem exec_flagThenResult {flag result : Byte → Byte → Byte} {c : Nat} {r : Nat → Nat → Nat}
    (h : exec i s = .next ((s.flagThenResult x y flag result).advance 2))
    (hflag : (flag (s.getV x) (s.getV y)).toNat = c)
    (hresult : ∀ a b, (result a b).toNat = r a.toNat b.toNat) :
    let a := (s.getV x).toNat
    let b := (s.getV y).toNat
    ∃ t, exec i s = .next t ∧ t.pc = s.pc + 2 ∧ SameExcept [.pc, .reg x, .reg VF] s t ∧
      (x ≠ VF → y ≠ VF → (t.getV x).toNat = r a b ∧ (t.getV VF).toNat = c) ∧
      (x = VF → y ≠ VF → (t.getV VF).toNat = r c b) ∧
      (x ≠ VF → y = VF → (t.getV x).toNat = r a c ∧ (t.getV VF).toNat = c) ∧
      (x = VF → y = VF → (t.getV VF).toNat = r c c) := by
  refine ⟨_, h, rfl, fun e he => ?frame, fun hx hy => ?neither, fun hx hy => ?left,
    fun hx hy => ?right, fun hx hy => ?both⟩
  case frame =>
    obtain ⟨hpc, hx, hvf⟩ : e ≠ .pc ∧ e ≠ .reg x ∧ e ≠ .reg VF := by simpa using he
    rw [State.elem_advance, if_neg hpc, s.elem_flagThenResult x y flag result e hvf hx]
  case neither =>
    simp [State.flagThenResult, State.getV_setV, hx, hy, Ne.symm hx, hresult, hflag]
  case left => simp [State.flagThenResult, State.getV_setV, hx, hy, hresult, ← hflag]
  case right =>
    simp [State.flagThenResult, State.getV_setV, hx, hy, Ne.symm hx, hresult, ← hflag]
  case both => simp [State.flagThenResult, hx, hy, hresult, ← hflag]

/-! ### The flags and the results as numbers -/

theorem toNat_carryFlag (a b : Byte) :
    (carryFlag a b).toNat = if a.toNat + b.toNat > 255 then 1 else 0 := by
  unfold carryFlag flagByte
  split <;> simp_all

theorem toNat_noBorrowFlag (a b : Byte) :
    (noBorrowFlag a b).toNat = if a.toNat > b.toNat then 1 else 0 := by
  unfold noBorrowFlag flagByte
  split <;> simp_all

theorem toNat_lowBitFlag (a : Byte) : (lowBitFlag a).toNat = a.toNat % 2 := by
  simp [lowBitFlag, Nat.and_one_is_mod]

theorem toNat_highBitFlag (a : Byte) : (highBitFlag a).toNat = a.toNat / 128 := by
  simp only [highBitFlag, BitVec.toNat_and, BitVec.toNat_ushiftRight, Nat.shiftRight_eq_div_pow]
  have hbit : a.toNat / 2 ^ 7 < 2 := by omega
  simpa [Nat.and_one_is_mod] using Nat.mod_eq_of_lt hbit

theorem toNat_byte_sub (a b : Byte) : (a - b).toNat = (a.toNat + 256 - b.toNat) % 256 := by
  bv_omega

theorem toNat_shiftRight_one (a : Byte) : (a >>> 1).toNat = a.toNat / 2 := by
  simp [Nat.shiftRight_eq_div_pow]

theorem toNat_shiftLeft_one (a : Byte) : (a <<< 1).toNat = 2 * a.toNat % 256 := by
  simp [Nat.shiftLeft_eq, Nat.mul_comm]

/-! ### The instructions -/

/-- Settles O24: the carry first, then the sum of the registers as the carry left them. -/
theorem addRegistersWithCarry : Obligations.AddRegistersWithCarry := by
  intro x y s a b c
  obtain ⟨t, h, hpc, hframe, hneither, hleft, hright, hboth⟩ :=
    exec_flagThenResult (i := .addReg x y) (s := s) (r := fun a b => (a + b) % 256) rfl
      (toNat_carryFlag _ _) BitVec.toNat_add
  refine ⟨t, h, hpc, hframe, hneither, hleft, hright, fun hx hy => ?_⟩
  have hc : c ≤ 1 := by
    simp only [c]
    split <;> decide
  calc (t.getV VF).toNat = (c + c) % 256 := hboth hx hy
    _ = 2 * c := by omega

/-- Settles O25: the no-borrow flag first, then the difference of the registers as the flag left
them. -/
theorem subtractRegistersBothWays : Obligations.SubtractRegistersBothWays := by
  refine fun x y s => ⟨?sub, ?subn⟩
  case sub =>
    obtain ⟨t, h, hpc, hframe, hneither, hleft, hright, hboth⟩ :=
      exec_flagThenResult (i := .subReg x y) (s := s) (r := fun a b => (a + 256 - b) % 256) rfl
        (toNat_noBorrowFlag _ _) toNat_byte_sub
    refine ⟨t, h, hpc, hframe, hneither, hleft, hright, fun hx hy => ?_⟩
    rw [hboth hx hy, Nat.add_sub_cancel_left]
  case subn =>
    obtain ⟨t, h, hpc, hframe, hneither, hleft, hright, hboth⟩ :=
      exec_flagThenResult (i := .subn x y) (s := s) (r := fun a b => (b + 256 - a) % 256) rfl
        (toNat_noBorrowFlag _ _) fun a b => toNat_byte_sub b a
    refine ⟨t, h, hpc, hframe, hneither, hleft, hright, fun hx hy => ?_⟩
    rw [hboth hx hy, Nat.add_sub_cancel_left]

/-- Settles O26: the dropped bit first, then the shift of `V[x]` as the flag left it; `y` is not
read. -/
theorem shiftsByOne : Obligations.ShiftsByOne := by
  refine fun x y s => ⟨?right, ?left⟩
  case right =>
    obtain ⟨t, h, hpc, hframe, hneither, hvf, hvfY, hboth⟩ :=
      exec_flagThenResult (i := .shr x y) (s := s) (r := fun a _ => a / 2) rfl (toNat_lowBitFlag _)
        fun a _ => toNat_shiftRight_one a
    refine ⟨t, h, hpc, hframe, fun hx => ?_, fun hx => ?_⟩
    · exact if hy : y = VF then hvfY hx hy else hneither hx hy
    · have hres : (t.getV VF).toNat = (s.getV x).toNat % 2 / 2 :=
        if hy : y = VF then hboth hx hy else hvf hx hy
      omega
  case left =>
    obtain ⟨t, h, hpc, hframe, hneither, hvf, hvfY, hboth⟩ :=
      exec_flagThenResult (i := .shl x y) (s := s) (r := fun a _ => 2 * a % 256) rfl
        (toNat_highBitFlag _) fun a _ => toNat_shiftLeft_one a
    refine ⟨t, h, hpc, hframe, fun hx => ?_, fun hx => ?_⟩
    · exact if hy : y = VF then hvfY hx hy else hneither hx hy
    · have hres : (t.getV VF).toNat = 2 * ((s.getV x).toNat / 128) % 256 :=
        if hy : y = VF then hboth hx hy else hvf hx hy
      omega

end Sys2Proof.Machine
end

/-! ## Stores and loads (43_index_memory) -/

section
namespace Sys2Proof.Machine

variable {s t : State} {x : Reg} {e : Elem}

/-! ### The elements the three instructions may write -/

/-- The elements R10 lets Fx33 write. -/
theorem mayWrite_ldBcd (h : MayWrite s (.ldBcd x) e) :
    e = .pc ∨ ∃ a, e = .byte a ∧ s.dataAddr 0 ≤ a ∧ a ≤ s.dataAddr 2 := by
  cases e with
  | pc => exact .inl rfl
  | byte a => exact .inr ⟨a, rfl, h⟩
  | _ => simp [MayWrite, WritesReg, WritesPixel, setsRedraw] at h

/-- The elements R10 lets Fx55 write. -/
theorem mayWrite_storeRegs (h : MayWrite s (.storeRegs x) e) :
    e = .pc ∨ ∃ a, e = .byte a ∧ s.dataAddr 0 ≤ a ∧ a ≤ s.dataAddr x.toNat := by
  cases e with
  | pc => exact .inl rfl
  | byte a => exact .inr ⟨a, rfl, h⟩
  | _ => simp [MayWrite, WritesReg, WritesPixel, setsRedraw] at h

/-- The elements R10 lets Fx65 write. -/
theorem mayWrite_loadRegs (h : MayWrite s (.loadRegs x) e) :
    e = .pc ∨ ∃ r : Reg, e = .reg r ∧ r.toNat ≤ x.toNat := by
  cases e with
  | pc => exact .inl rfl
  | reg r => exact .inr ⟨r, rfl, h⟩
  | _ => simp [MayWrite, WritesByte, WritesPixel, setsRedraw] at h

/-! ### What they leave in memory and in the registers -/

theorem dataFits_succ {k : Nat} : DataFits s (k + 1) ↔ s.dataAddr k ≤ 4095 := by
  simp [DataFits, State.dataAddr]

/-- A checked store of consecutive bytes puts each at its data address (20_memory R43). -/
theorem read_writeBytes_dataAddr {last k : Nat} {ws : List Byte} (hfit : DataFits s (last + 1))
    (hlen : ws.length = last + 1) (hk : k ≤ last) :
    (s.mem.writeBytes (s.dataAddr 0) ws).read (s.dataAddr k) = ws.getD k 0 := by
  have hfit := dataFits_succ.mp hfit
  simp only [State.dataAddr, Nat.add_zero] at hfit ⊢
  have hend : s.i.toNat + ws.length ≤ Config.memSize := by simp only [Config.memSize]; omega
  have hin : s.i.toNat ≤ s.i.toNat + k ∧ s.i.toNat + k < s.i.toNat + ws.length := by omega
  rw [Memory.read_writeBytes _ _ _ hend, if_pos hin, Nat.add_sub_cancel_left]

/-- The digits Fx33 stores (43_index_memory R143). -/
theorem exec_ldBcd_read {k : Nat} (h : exec (.ldBcd x) s = .next t) (hk : k ≤ 2) :
    t.mem.read (s.dataAddr k) = (bcdDigits (s.getV x)).getD k 0 := by
  obtain ⟨hfit, h⟩ := guarded_next.mp h
  cases h
  exact read_writeBytes_dataAddr ((s.dataFault_none 3).mp hfit) (bcdDigits_length _) hk

/-- The registers Fx55 stores (43_index_memory R144). -/
theorem exec_storeRegs_read {r : Reg} (h : exec (.storeRegs x) s = .next t)
    (hr : r.toNat ≤ x.toNat) : t.mem.read (s.dataAddr r.toNat) = s.getV r := by
  obtain ⟨hfit, h⟩ := guarded_next.mp h
  cases h
  calc (s.mem.writeBytes (s.dataAddr 0) (s.regsThrough x)).read (s.dataAddr r.toNat)
      = (s.regsThrough x).getD r.toNat 0 :=
        read_writeBytes_dataAddr ((s.dataFault_none _).mp hfit) (s.regsThrough_length x) hr
    _ = s.getV r := by rw [s.regsThrough_getD x hr, BitVec.ofNat_toNat, BitVec.setWidth_eq]

/-- The registers after Fx65: those up to `x` from memory (43_index_memory R145). -/
theorem exec_loadRegs_getV (h : exec (.loadRegs x) s = .next t) (r : Reg) :
    t.getV r = if r.toNat ≤ x.toNat then s.mem.read (s.dataAddr r.toNat) else s.getV r := by
  obtain ⟨-, h⟩ := guarded_next.mp h
  cases h
  simpa [Nat.lt_succ_iff, State.dataAddr] using s.loadFrom_getV (s.dataAddr 0) _ x.isLt r

/-! ### The instructions -/

/-- A digit of a byte is a byte. -/
theorem toNat_bcdDigits (b : Byte) :
    ((bcdDigits b).getD 0 0).toNat = b.toNat / 100 ∧
    ((bcdDigits b).getD 1 0).toNat = b.toNat / 10 % 10 ∧
    ((bcdDigits b).getD 2 0).toNat = b.toNat % 10 := by
  have hb := b.isLt
  simp only [bcdDigits, List.getD_cons_zero, List.getD_cons_succ, BitVec.toNat_ofNat]
  omega

/-- Settles O29: the three digits at their data addresses, and the frame of Fx33. -/
theorem storeDecimalDigits : Obligations.StoreDecimalDigits := by
  refine fun x s => ⟨fun hfit => ?_, fun hout => exec_fault_iff.mpr ⟨hout, rfl⟩⟩
  obtain ⟨t, h⟩ := exec_completes_iff.mpr (show Fits s (.ldBcd x) from dataFits_succ.mpr hfit)
  obtain ⟨hundreds, tens, ones⟩ := toNat_bcdDigits (s.getV x)
  refine ⟨t, h, exec_pcPolicy h, ?_, ?_, ?_, fun e he =>
    exec_sameOutside_mayWrite h e (mt mayWrite_ldBcd he)⟩
  · rw [exec_ldBcd_read h (by decide), hundreds]
  · rw [exec_ldBcd_read h (by decide), tens]
  · rw [exec_ldBcd_read h (by decide), ones]

/-- Settles O30: each register at its data address, and the frame of Fx55. -/
theorem storeRegistersThroughX : Obligations.StoreRegistersThroughX := by
  refine fun x s => ⟨fun hfit => ?_, fun hout => exec_fault_iff.mpr ⟨hout, rfl⟩⟩
  obtain ⟨t, h⟩ := exec_completes_iff.mpr (show Fits s (.storeRegs x) from dataFits_succ.mpr hfit)
  exact ⟨t, h, exec_pcPolicy h, fun r => exec_storeRegs_read h, fun e he =>
    exec_sameOutside_mayWrite h e (mt mayWrite_storeRegs he)⟩

/-- Settles O31: each register from its data address, and the frame of Fx65. -/
theorem loadRegistersThroughX : Obligations.LoadRegistersThroughX := by
  refine fun x s => ⟨fun hfit => ?_, fun hout => exec_fault_iff.mpr ⟨hout, rfl⟩⟩
  obtain ⟨t, h⟩ := exec_completes_iff.mpr (show Fits s (.loadRegs x) from dataFits_succ.mpr hfit)
  exact ⟨t, h, exec_pcPolicy h, fun r hr => (exec_loadRegs_getV h r).trans (if_pos hr),
    fun e he => exec_sameOutside_mayWrite h e (mt mayWrite_loadRegs he)⟩

/-! ### The store and then the load -/

/-- Fx65 after Fx55 with the same `x`: every register holds what it held before the pair, those up to
`x` because the load reads back what the store wrote. -/
theorem exec_loadRegs_getV_of_storeRegs {u : State} (hstore : exec (.storeRegs x) s = .next t)
    (hload : exec (.loadRegs x) t = .next u) (r : Reg) : u.getV r = s.getV r := by
  have hi : t.i = s.i := exec_i_of_not_mayWrite (by simp [MayWrite]) hstore
  have hread : r.toNat ≤ x.toNat → t.mem.read (t.dataAddr r.toNat) = s.getV r := fun hr => by
    rw [State.dataAddr, hi]
    exact exec_storeRegs_read hstore hr
  have hkept : t.getV r = s.getV r :=
    BitVec.eq_of_toNat_eq (exec_sameOutside_mayWrite hstore (.reg r) id)
  rw [exec_loadRegs_getV hload]
  split
  next hr => exact hread hr
  next => exact hkept

/-- Settles O32: I is outside what either writes, so the load reads where the store wrote; memory is
outside what the load writes. -/
theorem storeThenLoadRoundTrip : Obligations.StoreThenLoadRoundTrip := by
  intro x s t hstore
  have hi : t.i = s.i := exec_i_of_not_mayWrite (by simp [MayWrite]) hstore
  have hfit : Fits t (.loadRegs x) := by
    have hstored : DataFits s (x.toNat + 1) := exec_completes_iff.mp ⟨t, hstore⟩
    simpa [Fits, DataFits, hi] using hstored
  obtain ⟨u, hload⟩ := exec_completes_iff.mpr hfit
  have hregs := exec_loadRegs_getV_of_storeRegs hstore hload
  have hmem (a : Nat) : u.mem.read a = t.mem.read a := exec_read_of_not_writesByte id hload
  refine ⟨u, hload, ?pc, hregs, ?i, fun r hr => ?bytes, fun e he => ?frame⟩
  case pc =>
    have hpc : t.pc = s.pc + 2 := exec_pcPolicy hstore
    have hpc' : u.pc = t.pc + 2 := exec_pcPolicy hload
    rw [hpc', hpc, BitVec.add_assoc]
    rfl
  case i => exact (exec_i_of_not_mayWrite (by simp [MayWrite]) hload).trans hi
  case bytes => rw [hmem, exec_storeRegs_read hstore hr]
  case frame =>
    have hkept : t.elem e = s.elem e :=
      exec_sameOutside_mayWrite hstore e (mt mayWrite_storeRegs he)
    by_cases hload' : MayWrite t (.loadRegs x) e
    · obtain rfl | ⟨r, rfl, -⟩ := mayWrite_loadRegs hload'
      · exact absurd (.inl rfl) he
      · exact congrArg BitVec.toNat (hregs r)
    · exact (exec_sameOutside_mayWrite hload e hload').trans hkept

/-! ### Stored code (20_memory section 7) -/

/-- Settles O34: the next `pc` is the data address of V0, so the fetch reads V0 and V1. -/
theorem storedCodeIsFetchedNext : Obligations.StoredCodeIsFetchedNext := by
  intro x s t hx hx1 hi h
  obtain ⟨u, hu, rfl⟩ := step_next_of_executes hx h
  have hpc : u.pc = s.pc + 2 := exec_pcPolicy hu
  have hfit : s.dataAddr x.toNat ≤ 4095 := dataFits_succ.mp (exec_completes_iff.mp ⟨u, hu⟩)
  have hread0 : u.mem.read s.i.toNat = s.getV 0 :=
    exec_storeRegs_read (s := s.clearFlags) (r := 0) hu (Nat.zero_le _)
  have hread1 : u.mem.read (s.i.toNat + 1) = s.getV 1 :=
    exec_storeRegs_read (s := s.clearFlags) (r := 1) hu hx1
  rw [State.fetch_ok, u.tick_pc, u.tick_mem, hpc, ← hi, hread0, hread1]
  simp only [State.dataAddr] at hfit
  exact ⟨by omega, rfl⟩

end Sys2Proof.Machine
end

/-! ## Sprites (44_graphics) -/

section
namespace Sys2Proof.Machine

variable {s t : State} {x y : Reg} {n : Nibble} {e : Elem}

/-! ### The indices of a sprite -/

theorem mem_spriteRow {b : Byte} {vx vy r j : Nat} :
    j ∈ spriteRow b vx vy r ↔ ∃ c < 8, spriteBit b c = true ∧ j = spriteIndex vx vy r c := by
  simp only [spriteRow, List.mem_map, List.mem_filter, List.mem_range, and_assoc, eq_comm (a := j)]

/-- The columns of a row have distinct indices. -/
theorem spriteRow_nodup (b : Byte) (vx vy r : Nat) : (spriteRow b vx vy r).Nodup := by
  refine ((List.nodup_range).filter _).map fun c c' h => ?_
  simp only [spriteIndex] at h
  omega

/-- Two rows have no index in common: a row spans 8 indices and the next one starts 64 further. -/
theorem spriteRow_disjoint {b b' : Byte} {vx vy r r' : Nat} (hr : r ≠ r') :
    List.Disjoint (spriteRow b vx vy r) (spriteRow b' vx vy r') := by
  intro j hj hj'
  obtain ⟨c, hc, -, rfl⟩ := mem_spriteRow.mp hj
  obtain ⟨c', hc', -, h⟩ := mem_spriteRow.mp hj'
  simp only [spriteIndex] at h
  omega

/-- Settles O37: distinct in each row, and the rows disjoint. -/
theorem spriteIndicesDistinct : Obligations.SpriteIndicesDistinct := by
  intro s vx vy rows
  refine List.nodup_flatMap.mpr ⟨fun r _ => spriteRow_nodup _ vx vy r, ?_⟩
  exact List.nodup_range.imp fun hr => spriteRow_disjoint hr

/-! ### One draw -/

/-- The elements R10 lets Dxyn write. -/
theorem mayWrite_drw (h : MayWrite s (.drw x y n) e) :
    e = .pc ∨ e = .redraw ∨ e = .reg VF ∨ ∃ j, e = .pixel j ∧ SpriteCovers s x y n j := by
  cases e with
  | pc => exact .inl rfl
  | redraw => exact .inr (.inl rfl)
  | reg r => exact .inr (.inr (.inl (congrArg Elem.reg h)))
  | pixel j => exact .inr (.inr (.inr ⟨j, rfl, h⟩))
  | _ => simp [MayWrite, WritesByte] at h

/-- A completed Dxyn drew a list of distinct pixels of the framebuffer: those its sprite covers
(44_graphics R152). -/
theorem exec_drw_next (h : exec (.drw x y n) s = .next t) :
    ∃ js : List Nat, js.Nodup ∧ (∀ j ∈ js, j < Config.pixels) ∧
      (∀ j, j ∈ js ↔ SpriteCovers s x y n j) ∧
      t = ((js.foldl State.drawPixel (s.setV VF 0)).setRedraw true).advance 2 := by
  obtain ⟨-, h⟩ := guarded_next.mp h
  obtain ⟨hfit, h⟩ := guarded_next.mp h
  cases h
  exact ⟨_, spriteIndicesDistinct s _ _ _, (pixelFault_none _).mp hfit, s.mem_spritePixels _ _ _,
    rfl⟩

/-- The pixels after Dxyn: the covered ones toggled, as no index is drawn twice. -/
theorem exec_drw_pixel (h : exec (.drw x y n) s = .next t) (j : Nat) :
    (SpriteCovers s x y n j → t.pixel j = !s.pixel j) ∧
    (¬ SpriteCovers s x y n j → t.pixel j = s.pixel j) := by
  obtain ⟨js, hnodup, hfit, hcovers, rfl⟩ := exec_drw_next h
  rw [State.pixel_advance, State.pixel_setRedraw, State.foldl_drawPixel_pixel _ js hfit hnodup,
    State.pixel_setV, ← hcovers j]
  constructor <;> intro hj <;> simp [hj]

/-- VF after Dxyn: 1 if a covered pixel was on, else the 0 it was cleared to. -/
theorem exec_drw_vf (h : exec (.drw x y n) s = .next t) :
    ((∃ j, SpriteCovers s x y n j ∧ s.pixel j = true) → t.getV VF = 1) ∧
    ((∀ j, SpriteCovers s x y n j → s.pixel j = false) → t.getV VF = 0) := by
  obtain ⟨js, hnodup, hfit, hcovers, rfl⟩ := exec_drw_next h
  rw [State.getV_advance, State.getV_setRedraw, State.foldl_drawPixel_vf _ js hfit hnodup,
    State.getV_setV_same]
  simp only [State.pixel_setV, ← hcovers]
  exact ⟨fun hon => if_pos hon, fun hoff => if_neg fun ⟨j, hj, hon⟩ => by simp [hoff j hj] at hon⟩

/-- Settles O36: the fold over distinct indices toggles each covered pixel once, and its VF is the
collision flag. -/
theorem drawSprite : Obligations.DrawSprite := by
  intro x y n s hdata hfit
  obtain ⟨t, h⟩ := exec_completes_iff.mpr (show Fits s (.drw x y n) from ⟨hdata, hfit⟩)
  obtain ⟨hon, hoff⟩ := exec_drw_vf h
  exact ⟨t, h, exec_redrawPending_of_setsRedraw rfl h, exec_pcPolicy h,
    fun j => (exec_drw_pixel h j).1, fun j => (exec_drw_pixel h j).2, hon, hoff,
    fun e he => exec_sameOutside_mayWrite h e (mt mayWrite_drw he)⟩

/-! ### Two draws -/

/-- A state with the same memory, I and coordinates has the same sprite. -/
theorem spriteCovers_congr {j : Nat} (hmem : t.mem = s.mem) (hi : t.i = s.i)
    (hx : t.getV x = s.getV x) (hy : t.getV y = s.getV y) :
    SpriteCovers t x y n j ↔ SpriteCovers s x y n j := by
  simp only [SpriteCovers, SpriteSet, drawIndex, hmem, hi, hx, hy]

theorem fits_drw_congr (hmem : t.mem = s.mem) (hi : t.i = s.i)
    (hx : t.getV x = s.getV x) (hy : t.getV y = s.getV y) :
    Fits t (.drw x y n) ↔ Fits s (.drw x y n) := by
  simp only [Fits, DataFits, SpriteFits, SpriteSet, drawIndex, hmem, hi, hx, hy]

/-- Dxyn leaves memory (44_graphics R152). -/
theorem exec_drw_mem (h : exec (.drw x y n) s = .next t) : t.mem = s.mem := by
  obtain ⟨js, -, -, -, rfl⟩ := exec_drw_next h
  exact State.foldl_drawPixel_mem _ js

/-- A pixel toggled twice is as it was. -/
theorem exec_drw_twice_pixel {u : State}
    (hcovers : ∀ j, SpriteCovers t x y n j ↔ SpriteCovers s x y n j)
    (h : exec (.drw x y n) s = .next t) (h' : exec (.drw x y n) t = .next u) (j : Nat) :
    u.pixel j = s.pixel j := by
  obtain ⟨hfirst, hfirst'⟩ := exec_drw_pixel h j
  obtain ⟨hsecond, hsecond'⟩ := exec_drw_pixel h' j
  by_cases hj : SpriteCovers s x y n j
  · rw [hsecond ((hcovers j).mpr hj), hfirst hj, Bool.not_not]
  · rw [hsecond' (mt (hcovers j).mp hj), hfirst' hj]

/-- Settles O38: the second draw has the same sprite, so it toggles the same pixels; on a clear
framebuffer it finds on exactly what the first drew (C2). -/
theorem drawTwiceRestores : Obligations.DrawTwiceRestores := by
  intro x y n s t h hx hy
  have hmem := exec_drw_mem h
  have hi : t.i = s.i := exec_i_of_not_mayWrite (by simp [MayWrite]) h
  have hcovers (j : Nat) := spriteCovers_congr (n := n) (j := j) hmem hi hx hy
  obtain ⟨u, h'⟩ := exec_completes_iff.mpr
    ((fits_drw_congr hmem hi hx hy).mpr (exec_completes_iff.mp ⟨t, h⟩))
  refine ⟨u, h', exec_drw_twice_pixel hcovers h h', fun hclear => ⟨?_, ?_⟩⟩
  · exact (exec_drw_vf h).2 fun j _ => hclear j
  · obtain ⟨hon, hoff⟩ := exec_drw_vf h'
    constructor
    · intro hvf
      by_contra hnone
      have hvf0 : u.getV VF = 0 := hoff fun j hj => absurd ⟨j, (hcovers j).mp hj⟩ hnone
      rw [hvf] at hvf0
      exact absurd hvf0 (by decide)
    · rintro ⟨j, hj⟩
      have hlit : t.pixel j = true := by rw [(exec_drw_pixel h j).1 hj, hclear j]; rfl
      exact hon ⟨j, (hcovers j).mpr hj, hlit⟩

end Sys2Proof.Machine
end

/-! ## Runs that only count the timers down (70_reset_and_hazards sections 3 and 4) -/

section
namespace Sys2Proof.Machine

variable {s t : State} {i : Instr}

/-- What a step leaves when its instruction changes nothing: the flag clear and the timer tick. -/
def State.rest (s : State) : State := s.clearFlags.tick

/-! ### A resting state -/

theorem State.rest_dt (s : State) : s.rest.dt.toNat = s.dt.toNat - 1 := s.clearFlags.tick_dt

theorem State.rest_st (s : State) : s.rest.st.toNat = s.st.toNat - 1 := s.clearFlags.tick_st

theorem State.elem_rest {e : Elem}
    (he : e ∉ ([.delayTimer, .soundTimer, .redraw, .sound] : List Elem)) :
    s.rest.elem e = s.elem e := by
  simp only [List.mem_cons, List.not_mem_nil, or_false, not_or] at he
  obtain ⟨hdt, hst, hredraw, hsound⟩ := he
  rw [State.rest, State.elem_tick _ e hdt hst hsound, State.elem_clearFlags]
  simp [hredraw, hsound]

/-- The timers and the flags are not fetched. -/
theorem executes_rest : Executes s.rest i ↔ Executes s i := by
  simp [Executes, State.wordAtPc, State.rest]

theorem State.key_rest (s : State) (k : BitVec 4) : s.rest.key k = s.key k := by
  simp [State.key, State.rest]

/-- A step whose instruction changes nothing. -/
theorem step_eq_rest (hx : Executes s i) (h : exec i s.clearFlags = .next s.clearFlags) :
    step s = .next s.rest :=
  step_of_executes hx h

/-! ### The run -/

/-- A predicate under which a step rests, and which resting keeps. -/
def Resting (p : State → Prop) : Prop := ∀ s, p s → step s = .next s.rest ∧ p s.rest

/-- From a state that keeps resting every run rests: the timers count down, and nothing else changes
but the transient flags. -/
theorem runs_of_resting {p : State → Prop} (hp : Resting p) (hs : p s) (n : Nat) :
    ∃ t, Runs n s t ∧ p t ∧ t.dt.toNat = s.dt.toNat - n ∧ t.st.toNat = s.st.toNat - n ∧
      SameExcept [.delayTimer, .soundTimer, .redraw, .sound] s t := by
  induction n generalizing s with
  | zero => exact ⟨s, rfl, hs, rfl, rfl, fun _ _ => rfl⟩
  | succ n ih =>
    obtain ⟨hstep, hrest⟩ := hp s hs
    obtain ⟨t, hruns, ht, hdt, hst, hsame⟩ := ih hrest
    refine ⟨t, ⟨s.rest, hstep, hruns⟩, ht, ?_, ?_, fun e he => ?_⟩
    · rw [hdt, s.rest_dt]
      omega
    · rw [hst, s.rest_st]
      omega
    · rw [hsame e he, State.elem_rest he]

/-- A run, and one step more. -/
theorem runs_succ_right {u : State} {n : Nat} (h : Runs n s t) (hstep : step t = .next u) :
    Runs (n + 1) s u := by
  induction n generalizing s with
  | zero =>
    obtain rfl : s = t := h
    exact ⟨u, hstep, rfl⟩
  | succ n ih =>
    obtain ⟨w, hw, h⟩ := h
    exact ⟨w, hw, ih h⟩

/-! ### Waiting for a key -/

/-- Settles O42: a waiting Fx0A changes nothing, and resting presses no key. -/
theorem keyWaitRepeats : Obligations.KeyWaitRepeats := by
  intro x s hx hnone n
  have hresting : Resting fun s => Executes s (.ldKey x) ∧ ∀ k, s.key k = false := by
    rintro s ⟨hx, hnone⟩
    refine ⟨step_eq_rest hx (exec_ldKey_of_none hnone), executes_rest.mpr hx, fun k => ?_⟩
    rw [s.key_rest, hnone k]
  obtain ⟨t, hruns, -, hdt, hst, hsame⟩ := runs_of_resting hresting ⟨hx, hnone⟩ n
  exact ⟨t, hruns, hdt, hst, hsame⟩

/-! ### Idling -/

/-- A jump to itself changes nothing, and resting moves neither `pc` nor the word there. -/
theorem resting_idle : Resting Idle := by
  rintro s ⟨nnn, hx, hself⟩
  refine ⟨step_eq_rest hx (exec_jp_self hself), nnn, executes_rest.mpr hx, ?_⟩
  rw [hself, State.rest, State.tick_pc, State.clearFlags_pc]

/-- With both timers at 0 the tick does nothing (40_step_cycle R88). -/
theorem State.tick_of_timers_zero (hdt : s.dt = 0) (hst : s.st = 0) : s.tick = s := by
  simp [State.tick, hdt, hst]

theorem rest_of_timers_zero (hdt : s.dt = 0) (hst : s.st = 0) : s.rest = s.clearFlags :=
  State.tick_of_timers_zero hdt hst

/-- An idle state with both timers at 0 rests to a final one (D20). -/
theorem final_rest (hidle : Idle s) (hdt : s.dt = 0) (hst : s.st = 0) : Final s.rest := by
  refine ⟨(resting_idle s hidle).2, ?_⟩
  rw [rest_of_timers_zero hdt hst]
  exact ⟨hdt, hst, rfl, rfl⟩

/-- A final state is a fixed point of the step (70_reset_and_hazards R210). -/
theorem step_of_final (h : Final s) : step s = .next s := by
  obtain ⟨hidle, hdt, hst, hredraw, hsound⟩ := h
  have hflags : s.clearFlags = s :=
    calc s.clearFlags
        = (s.setRedraw s.redrawPending).setSound s.soundPending := by rw [hredraw, hsound]; rfl
      _ = s := rfl
  rw [(resting_idle s hidle).1, rest_of_timers_zero hdt hst, hflags]

/-- Settles O55: an idle state rests; after 255 steps both timers are at 0, and one more step clears
`sound_pending` too. -/
theorem idleRunsToAFixedPoint : Obligations.IdleRunsToAFixedPoint := by
  refine fun s hidle => ⟨runs_of_resting resting_idle hidle, ?_⟩
  obtain ⟨t, hruns, ht, hdt, hst, -⟩ := runs_of_resting resting_idle hidle 255
  have hdt0 : t.dt = 0 := by bv_omega
  have hst0 : t.st = 0 := by bv_omega
  have hfinal := final_rest ht hdt0 hst0
  exact ⟨t.rest, runs_succ_right hruns (resting_idle t ht).1, hfinal, step_of_final hfinal⟩

end Sys2Proof.Machine
end

/-! ## Reset (70_reset_and_hazards section 1, 10_state sections 8 and 9) -/

section
namespace Sys2Proof.Machine

/-- Glyph 0 is the first five bytes of every font table (10_state R26). -/
theorem FontTable.bytes_glyphZero (font : FontTable) :
    (List.range 5).map (fun k => font.bytes.getD k 0) = glyphZero := by
  simp [FontTable.bytes, glyphZero, List.range_succ]

/-- The configured glyphs are the bytes from the sixth on (10_state R26). -/
theorem FontTable.bytes_glyphs (font : FontTable) {k : Nat} (hk : k < 75) :
    font.bytes.getD (5 + k) 0 = font.glyphs[k] := by
  have hlen : glyphZero.length = 5 := rfl
  rw [FontTable.bytes, ← hlen, List.getD_append_right _ _ _ _ (by omega), Nat.add_sub_cancel_left,
    List.getD_eq_getElem _ _ (by simpa using hk)]
  simp

/-- A byte below the image: the font table, and 0 after it (10_state R25). -/
theorem resetMemory_read_of_lt (font : FontTable) {image : List Byte} (h : image.length ≤ 3584)
    {a : Nat} (ha : a < 0x200) :
    (resetMemory font image).read a = if a < 80 then font.bytes.getD a 0 else 0 := by
  rw [resetMemory_read font h, if_neg (by omega)]

/-- Settles O52: the bytes by their ranges; every other element is a field of `State.reset`. -/
theorem resetPlacesTheImage : Obligations.ResetPlacesTheImage := by
  intro font image h
  have hlow (a : Nat) (ha : a < 0x50) : (resetMemory font image).read a = font.bytes.getD a 0 :=
    (resetMemory_read_of_lt font h (by omega)).trans (if_pos ha)
  refine ⟨_, State.resetWith_ok.mpr ⟨h, rfl⟩, fun k hk => ?image, fun a ha => ?above,
    fun a ha1 ha2 => ?between, hlow, fun k hk => ?glyphs, ?glyphZero, ?registers, rfl, rfl, ?slots,
    rfl, rfl, rfl, rfl, rfl, ?keys, ?pixels⟩
  case image =>
    rw [resetMemory_read font h, if_pos (by omega), Nat.add_sub_cancel_left]
  case above =>
    rw [resetMemory_read font h, if_neg (by omega), if_neg (by omega)]
  case between => exact (resetMemory_read_of_lt font h ha2).trans (if_neg (by omega))
  case glyphs => exact (hlow (5 + k) (by omega)).trans (font.bytes_glyphs hk)
  case glyphZero =>
    calc (List.range 5).map (resetMemory font image).read
        = (List.range 5).map fun k => font.bytes.getD k 0 :=
          List.map_congr_left fun k hk => hlow k ((List.mem_range.mp hk).trans (by decide))
      _ = glyphZero := font.bytes_glyphZero
  case registers => exact fun r => Vector.getElem_replicate _
  case slots => exact fun k => Vector.getElem_replicate _
  case keys => exact fun k => Vector.getElem_replicate _
  case pixels => exact State.reset.pixel_clearPixels

/-- Settles O53: Fx29 leaves memory, and the five bytes from `5 k` lie in the font table. -/
theorem fontAddressOfDigit : Obligations.FontAddressOfDigit := by
  intro font image s hreset x k
  obtain ⟨himage, rfl⟩ := State.resetWith_ok.mp hreset
  have hk : (k.setWidth 8).toNat = k.toNat := BitVec.toNat_setWidth_of_le (by decide)
  obtain ⟨t, h, hi, -, -⟩ :=
    exec_setI (i := .ldFont x) rfl (toNat_zextByte_mul_five (State.getV _ x))
  have haddr : t.i.toNat = 5 * k.toNat := by
    rw [hi, State.getV_setV_same, hk, Nat.mul_comm]
  refine ⟨t, h, haddr, fun r hr => ?_⟩
  have hmem : t.mem.read (5 * k.toNat + r) = (resetMemory font image).read (5 * k.toNat + r) :=
    exec_read_of_not_writesByte id h
  have hin : 5 * k.toNat + r < 80 := by omega
  rw [haddr, hmem, resetMemory_read_of_lt font himage (by omega), if_pos hin]

/-- With no image the word at the reset `pc` is 0x0000 (70_reset_and_hazards R201). -/
theorem wordAtPc_resetWith_nil (font : FontTable) :
    State.wordAtPc { State.reset with mem := resetMemory font [] } = 0x0000 := by
  have hzero (a : Nat) (ha : 80 ≤ a) : (resetMemory font []).read a = 0 := by
    rw [resetMemory_read font (Nat.zero_le _), if_neg (by simp), if_neg (by omega)]
  exact congrArg₂ joinBytes (hzero 0x200 (by decide)) (hzero 0x201 (by decide))

/-- Settles O54: the size check of reset; a word of zeros decodes to nothing; the default font is what
unlisted memory reads as. -/
theorem resetRejectsLargeImages : Obligations.ResetRejectsLargeImages := by
  refine ⟨fun font image hlarge => ?large, fun font => ?empty, ?default⟩
  case large =>
    have hfit : wellFormedImage image = false := by simpa [wellFormedImage] using hlarge
    simp [State.resetWith, hfit]
  case empty =>
    have hpc : State.reset.pc.toNat ≤ 4094 := by decide
    exact ⟨_, State.resetWith_ok.mpr ⟨Nat.zero_le _, rfl⟩,
      step_eq_of_decode_none (wordAtPc_resetWith_nil font) (by decide) hpc⟩
  case default =>
    rw [State.resetWith_ok, resetMemory_default]
    exact ⟨Nat.zero_le _, rfl⟩

end Sys2Proof.Machine
end
